-- ==== Sys2Proof/Word.lean ====
section
/-!
DEFINITION. The machine's closed vocabularies: words and bytes (spec/00_scope.md R2, R11), the register names
(spec/10_state.md R20), the comparison outcomes (R31) and the errors (spec/60_exceptions.md R220).
-/

namespace Sys2Proof

/-- A register's content or an address: 32 bits, unsigned (R2, R11). -/
abbrev Word := BitVec 32

/-- One byte of memory or of an instruction (R2). -/
abbrev Byte := BitVec 8

/-- The eleven register names (R20). A name holds no data: it names a slot of the register file. -/
inductive Reg where
  | ip | sp | fp | r1 | r2 | r3 | r4 | r5 | r6 | r7 | r8
deriving DecidableEq, Repr

/-- The register names in the order of the source's list (R20, R21). -/
def Reg.all : List Reg := [.ip, .sp, .fp, .r1, .r2, .r3, .r4, .r5, .r6, .r7, .r8]

/-- The six outcomes the comparison flag can hold (R31). A compare records only `eq`, `lt` or `gt` (R32). -/
inductive Comparison where
  | eq | ne | lt | lte | gt | gte
deriving DecidableEq, Repr

/-- The six outcomes in the order of the source's list (R31). -/
def Comparison.all : List Comparison := [.eq, .ne, .lt, .lte, .gt, .gte]

/-- The closed list of errors, each with the payload the spec records (R220). -/
inductive CpuError where
  /-- The byte read at IP names no opcode (R221). -/
  | invalidOpCode (b : Byte)
  /-- A register operand byte names no register (R222). -/
  | invalidRegister (b : Byte)
  /-- A byte access at an address outside memory; the payload is the first such address (R223). -/
  | invalidAddress (a : Word)
  /-- An address computation reached 2^32 (R224). -/
  | stackOverflow
  /-- An address computation fell below 0 (R225). -/
  | stackUnderflow
  /-- A byte converted to a comparison is none of the six encodings (R226); no step raises it. -/
  | invalidComparison (b : Byte)
deriving DecidableEq, Repr

end Sys2Proof
end

