-- ==== Sys2Proof/Syntax.lean ====
section
/-!
DEFINITION. The instructions: one constructor per row of spec/opcode_table.json, operands in encoding order
(spec/30_encoding.md R82, R84). Register operands are register names and immediates have their own width, so an
operand that no encoding can hold cannot be written; addresses are program-relative offsets (R81, R88).
-/

namespace Sys2Proof

/-- A decoded instruction with its typed operands (R17, R84). -/
inductive Instr where
  /-- MovRegReg dst, src: copy a register (R111). -/
  | movRegReg (dst src : Reg)
  /-- MovRegU8 dst, imm8: load an 8-bit immediate, zero-extended (R112). -/
  | movRegU8 (dst : Reg) (imm : BitVec 8)
  /-- MovRegU16 dst, imm16: load a 16-bit immediate, zero-extended (R113). -/
  | movRegU16 (dst : Reg) (imm : BitVec 16)
  /-- MovRegU32 dst, imm32: load a 32-bit immediate (R114). -/
  | movRegU32 (dst : Reg) (imm : BitVec 32)
  /-- MovRegMem dst, addr: load a word from memory (R115). -/
  | movRegMem (dst : Reg) (addr : Word)
  /-- MovMemReg addr, src: store a register (R116). -/
  | movMemReg (addr : Word) (src : Reg)
  /-- MovMemU8 addr, imm8: store one byte (R117). -/
  | movMemU8 (addr : Word) (imm : BitVec 8)
  /-- MovMemU16 addr, imm16: store two bytes (R118). -/
  | movMemU16 (addr : Word) (imm : BitVec 16)
  /-- MovMemU32 addr, imm32: store four bytes (R119). -/
  | movMemU32 (addr : Word) (imm : BitVec 32)
  /-- AddRegReg dst, src: add a register to a register (R131). -/
  | addRegReg (dst src : Reg)
  /-- AddRegU8 dst, imm8: add an 8-bit immediate (R132). -/
  | addRegU8 (dst : Reg) (imm : BitVec 8)
  /-- AddRegU16 dst, imm16: add a 16-bit immediate (R133). -/
  | addRegU16 (dst : Reg) (imm : BitVec 16)
  /-- AddRegU32 dst, imm32: add a 32-bit immediate (R134). -/
  | addRegU32 (dst : Reg) (imm : BitVec 32)
  /-- AddRegMem dst, addr: add a memory word to a register (R135). -/
  | addRegMem (dst : Reg) (addr : Word)
  /-- AddMemReg addr, src: add a register to a memory word (R136). -/
  | addMemReg (addr : Word) (src : Reg)
  /-- IncReg reg: add one to a register (R137). -/
  | incReg (reg : Reg)
  /-- IncMem addr: add one to a memory word (R138). -/
  | incMem (addr : Word)
  /-- PushReg src: push a register (R152). -/
  | pushReg (src : Reg)
  /-- PushMem addr: push a memory word (R153). -/
  | pushMem (addr : Word)
  /-- PushU8 imm8: push an 8-bit immediate as a word (R154). -/
  | pushU8 (imm : BitVec 8)
  /-- PushU16 imm16: push a 16-bit immediate as a word (R155). -/
  | pushU16 (imm : BitVec 16)
  /-- PushU32 imm32: push a 32-bit immediate (R156). -/
  | pushU32 (imm : BitVec 32)
  /-- PopReg dst: pop the top stack word into a register (R157). -/
  | popReg (dst : Reg)
  /-- CmpReg a, b: compare two registers (R171). -/
  | cmpReg (a b : Reg)
  /-- CmpU8 a, b: compare two 8-bit immediates (R172). -/
  | cmpU8 (a b : BitVec 8)
  /-- CmpU16 a, b: compare two 16-bit immediates (R173). -/
  | cmpU16 (a b : BitVec 16)
  /-- CmpU32 a, b: compare two 32-bit immediates (R174). -/
  | cmpU32 (a b : BitVec 32)
  /-- Jump addr: unconditional jump (R176). -/
  | jump (addr : Word)
  /-- JumpGe addr: jump if flags = Gt (R177). -/
  | jumpGe (addr : Word)
  /-- JumpGte addr: jump if flags = Gt or Gte (R178). -/
  | jumpGte (addr : Word)
  /-- JumpLt addr, the source's "JumpLe/Lt": jump if flags = Lt (R179). -/
  | jumpLt (addr : Word)
  /-- JumpLte addr: jump if flags = Lt or Lte (R180). -/
  | jumpLte (addr : Word)
  /-- Call addr: push a frame and jump (R191). -/
  | call (addr : Word)
  /-- Load dst, addr: load a word from memory (R200). -/
  | load (dst : Reg) (addr : Word)
  /-- StoreReg src, addr: store a register (R201). -/
  | storeReg (src : Reg) (addr : Word)
  /-- StoreU8 addr, imm8: store one byte (R202). -/
  | storeU8 (addr : Word) (imm : BitVec 8)
  /-- StoreU16 addr, imm16: store two bytes (R203). -/
  | storeU16 (addr : Word) (imm : BitVec 16)
  /-- StoreU32 addr, imm32: store four bytes (R204). -/
  | storeU32 (addr : Word) (imm : BitVec 32)
  /-- Interrupt idx: dispatch the interrupt numbered by an immediate (R211). -/
  | interrupt (idx : BitVec 8)
  /-- InterruptReg reg: dispatch the interrupt numbered by a register (R212). -/
  | interruptReg (reg : Reg)
  /-- Halt: stop the engine (R213). -/
  | halt
  /-- Ret: unwind the frame at FP and return (R192). -/
  | ret
deriving DecidableEq, Repr

end Sys2Proof
end

