-- ==== Sys2Proof/Decode.lean ====
section
/-!
DEFINITION. The encoding (spec/30_encoding.md): opcode and register bytes, formats and lengths, the decoder, total on
any bytes and rejecting by name, and after it the encoder. The numberings of R84 and R21 are the spec's own
(decisions D1, D2; log 8); each is one function here.
-/

namespace Sys2Proof

/-! ## Bytes and numbers -/

/-- byte_k of R11: bits 8k+7 .. 8k. -/
def byteOf (w : Nat) (v : BitVec w) (k : Nat) : Byte := v.extractLsb' (8 * k) 8

/-- The 16-bit little-endian value of two bytes (R89). -/
def word16 (b0 b1 : Byte) : BitVec 16 := BitVec.ofNat 16 (b0.toNat + b1.toNat * 2 ^ 8)

/-- The 32-bit little-endian value of four bytes (R88, R89). -/
def word32 (b0 b1 b2 b3 : Byte) : BitVec 32 :=
  BitVec.ofNat 32 (b0.toNat + b1.toNat * 2 ^ 8 + b2.toNat * 2 ^ 16 + b3.toNat * 2 ^ 24)

/-! ## Opcodes, formats and lengths -/

/-- The one-byte tags of the 42 instructions, in the order of the source's list (R84). -/
inductive Opcode where
  | movRegReg | movRegU8 | movRegU16 | movRegU32 | movRegMem | movMemReg | movMemU8
  | movMemU16 | movMemU32 | addRegReg | addRegU8 | addRegU16 | addRegU32 | addRegMem
  | addMemReg | incReg | incMem | pushReg | pushMem | pushU8 | pushU16
  | pushU32 | popReg | cmpReg | cmpU8 | cmpU16 | cmpU32 | jump
  | jumpGe | jumpGte | jumpLt | jumpLte | call | load | storeReg
  | storeU8 | storeU16 | storeU32 | interrupt | interruptReg | halt | ret
deriving DecidableEq, Repr

/-- All 42 opcodes, in the order of R84. -/
def Opcode.all : List Opcode :=
  [.movRegReg, .movRegU8, .movRegU16, .movRegU32, .movRegMem, .movMemReg, .movMemU8,
   .movMemU16, .movMemU32, .addRegReg, .addRegU8, .addRegU16, .addRegU32, .addRegMem,
   .addMemReg, .incReg, .incMem, .pushReg, .pushMem, .pushU8, .pushU16,
   .pushU32, .popReg, .cmpReg, .cmpU8, .cmpU16, .cmpU32, .jump,
   .jumpGe, .jumpGte, .jumpLt, .jumpLte, .call, .load, .storeReg,
   .storeU8, .storeU16, .storeU32, .interrupt, .interruptReg, .halt, .ret]

/-- The opcode byte, the column "byte" of R84 (parameter OPC of R10). -/
def Opcode.toByte : Opcode → Byte
  | .movRegReg => 0x00#8
  | .movRegU8 => 0x01#8
  | .movRegU16 => 0x02#8
  | .movRegU32 => 0x03#8
  | .movRegMem => 0x04#8
  | .movMemReg => 0x05#8
  | .movMemU8 => 0x06#8
  | .movMemU16 => 0x07#8
  | .movMemU32 => 0x08#8
  | .addRegReg => 0x09#8
  | .addRegU8 => 0x0A#8
  | .addRegU16 => 0x0B#8
  | .addRegU32 => 0x0C#8
  | .addRegMem => 0x0D#8
  | .addMemReg => 0x0E#8
  | .incReg => 0x0F#8
  | .incMem => 0x10#8
  | .pushReg => 0x11#8
  | .pushMem => 0x12#8
  | .pushU8 => 0x13#8
  | .pushU16 => 0x14#8
  | .pushU32 => 0x15#8
  | .popReg => 0x16#8
  | .cmpReg => 0x17#8
  | .cmpU8 => 0x18#8
  | .cmpU16 => 0x19#8
  | .cmpU32 => 0x1A#8
  | .jump => 0x1B#8
  | .jumpGe => 0x1C#8
  | .jumpGte => 0x1D#8
  | .jumpLt => 0x1E#8
  | .jumpLte => 0x1F#8
  | .call => 0x20#8
  | .load => 0x21#8
  | .storeReg => 0x22#8
  | .storeU8 => 0x23#8
  | .storeU16 => 0x24#8
  | .storeU32 => 0x25#8
  | .interrupt => 0x26#8
  | .interruptReg => 0x27#8
  | .halt => 0x28#8
  | .ret => 0x29#8

/-- The opcode a byte names, if any; 0x2A .. 0xFF name none (R84, R90). -/
def Opcode.ofByte (b : Byte) : Option Opcode := Opcode.all.find? (fun op => op.toByte == b)

/-- The three kinds of operand, immediates split by width (R81). -/
inductive OperandKind where
  | reg | addr | imm8 | imm16 | imm32
deriving DecidableEq, Repr

/-- How many bytes an operand takes (R81). -/
def OperandKind.size : OperandKind → Nat
  | .reg => 1 | .addr => 4 | .imm8 => 1 | .imm16 => 2 | .imm32 => 4

/-- The instruction formats (R83). -/
inductive Format where
  | f0 | fr | fi8 | fi16 | fi32 | fa | frr | fri8 | fri16 | fri32 | fra | far | fai8 | fai16 | fai32 | fii8 | fii16 | fii32
deriving DecidableEq, Repr

/-- The operands of a format, in ascending byte order (R83). -/
def Format.operands : Format → List OperandKind
  | .f0 => []
  | .fr => [.reg]
  | .fi8 => [.imm8]
  | .fi16 => [.imm16]
  | .fi32 => [.imm32]
  | .fa => [.addr]
  | .frr => [.reg, .reg]
  | .fri8 => [.reg, .imm8]
  | .fri16 => [.reg, .imm16]
  | .fri32 => [.reg, .imm32]
  | .fra => [.reg, .addr]
  | .far => [.addr, .reg]
  | .fai8 => [.addr, .imm8]
  | .fai16 => [.addr, .imm16]
  | .fai32 => [.addr, .imm32]
  | .fii8 => [.imm8, .imm8]
  | .fii16 => [.imm16, .imm16]
  | .fii32 => [.imm32, .imm32]

/-- The format column of R84. -/
def Opcode.format : Opcode → Format
  | .movRegReg => .frr
  | .movRegU8 => .fri8
  | .movRegU16 => .fri16
  | .movRegU32 => .fri32
  | .movRegMem => .fra
  | .movMemReg => .far
  | .movMemU8 => .fai8
  | .movMemU16 => .fai16
  | .movMemU32 => .fai32
  | .addRegReg => .frr
  | .addRegU8 => .fri8
  | .addRegU16 => .fri16
  | .addRegU32 => .fri32
  | .addRegMem => .fra
  | .addMemReg => .far
  | .incReg => .fr
  | .incMem => .fa
  | .pushReg => .fr
  | .pushMem => .fa
  | .pushU8 => .fi8
  | .pushU16 => .fi16
  | .pushU32 => .fi32
  | .popReg => .fr
  | .cmpReg => .frr
  | .cmpU8 => .fii8
  | .cmpU16 => .fii16
  | .cmpU32 => .fii32
  | .jump => .fa
  | .jumpGe => .fa
  | .jumpGte => .fa
  | .jumpLt => .fa
  | .jumpLte => .fa
  | .call => .fa
  | .load => .fra
  | .storeReg => .fra
  | .storeU8 => .fai8
  | .storeU16 => .fai16
  | .storeU32 => .fai32
  | .interrupt => .fi8
  | .interruptReg => .fr
  | .halt => .f0
  | .ret => .f0

/-- The increment amount L: the opcode byte and the operand bytes (R80, R85). -/
def Opcode.length (op : Opcode) : Nat := 1 + (op.format.operands.map OperandKind.size).sum

/-- The longest instruction has 9 bytes (R80). -/
def maxInstrLength : Nat := 9

/-! ## Registers and comparisons as bytes -/

/-- The 8-bit encoding of a register name (R21; parameter REGID of R10). -/
def Reg.toByte : Reg → Byte
  | .ip => 0x00#8
  | .sp => 0x01#8
  | .fp => 0x02#8
  | .r1 => 0x03#8
  | .r2 => 0x04#8
  | .r3 => 0x05#8
  | .r4 => 0x06#8
  | .r5 => 0x07#8
  | .r6 => 0x08#8
  | .r7 => 0x09#8
  | .r8 => 0x0A#8

/-- The register a byte names, if any (R21). -/
def Reg.ofByte (b : Byte) : Option Reg := Reg.all.find? (fun r => r.toByte == b)

/-- The numbering of the comparison outcomes (R31, D3; parameter CMPID of R10). No instruction carries one (log 9). -/
def Comparison.toByte : Comparison → Byte
  | .eq => 0#8
  | .ne => 1#8
  | .lt => 2#8
  | .lte => 3#8
  | .gt => 4#8
  | .gte => 5#8

/-- Converting a byte to a comparison outcome (R31, R226). -/
def decodeComparison (b : Byte) : Except CpuError Comparison :=
  match Comparison.all.find? (fun c => c.toByte == b) with
  | some c => .ok c
  | none => .error (.invalidComparison b)

/-! ## The decoder -/

/-- From the opcode byte to the opcode (R90, R94). -/
def decodeOpcode (b : Byte) : Except CpuError Opcode :=
  match Opcode.ofByte b with
  | some op => .ok op
  | none => .error (.invalidOpCode b)

/-- A register operand (R87). -/
def decodeReg (b : Byte) : Except CpuError Reg :=
  match Reg.ofByte b with
  | some r => .ok r
  | none => .error (.invalidRegister b)

/-- Byte `k` of the operand window. The window always has the opcode's length less one (R92), so the 0 for a missing
byte is never read by `decodeBytes` or by a fetch. -/
def windowByte (win : List Byte) (k : Nat) : Byte := win.getD k 0

/-- The register operand at offset `k` of the window (R87). -/
def regAt (win : List Byte) (k : Nat) : Except CpuError Reg := decodeReg (windowByte win k)

/-- The 8-bit immediate at offset `k` of the window (R89). -/
def imm8At (win : List Byte) (k : Nat) : BitVec 8 := windowByte win k

/-- The 16-bit immediate at offset `k` of the window (R89). -/
def imm16At (win : List Byte) (k : Nat) : BitVec 16 := word16 (windowByte win k) (windowByte win (k + 1))

/-- The 32-bit immediate or address operand at offset `k` of the window (R88, R89). -/
def imm32At (win : List Byte) (k : Nat) : BitVec 32 :=
  word32 (windowByte win k) (windowByte win (k + 1)) (windowByte win (k + 2)) (windowByte win (k + 3))

/-- From opcode and operand window to the instruction (R83, R92, R95). The window begins after the opcode byte, so an
operand at byte offset n of the instruction is at window offset n - 1. Register bytes are checked in ascending offset
order (R87). -/
def decodeWindow (op : Opcode) (win : List Byte) : Except CpuError Instr :=
  match op with
  | .movRegReg => do
      let a ← regAt win 0
      let b ← regAt win 1
      return .movRegReg a b
  | .movRegU8 => do
      let r ← regAt win 0
      return .movRegU8 r (imm8At win 1)
  | .movRegU16 => do
      let r ← regAt win 0
      return .movRegU16 r (imm16At win 1)
  | .movRegU32 => do
      let r ← regAt win 0
      return .movRegU32 r (imm32At win 1)
  | .movRegMem => do
      let r ← regAt win 0
      return .movRegMem r (imm32At win 1)
  | .movMemReg => do
      let r ← regAt win 4
      return .movMemReg (imm32At win 0) r
  | .movMemU8 => .ok (.movMemU8 (imm32At win 0) (imm8At win 4))
  | .movMemU16 => .ok (.movMemU16 (imm32At win 0) (imm16At win 4))
  | .movMemU32 => .ok (.movMemU32 (imm32At win 0) (imm32At win 4))
  | .addRegReg => do
      let a ← regAt win 0
      let b ← regAt win 1
      return .addRegReg a b
  | .addRegU8 => do
      let r ← regAt win 0
      return .addRegU8 r (imm8At win 1)
  | .addRegU16 => do
      let r ← regAt win 0
      return .addRegU16 r (imm16At win 1)
  | .addRegU32 => do
      let r ← regAt win 0
      return .addRegU32 r (imm32At win 1)
  | .addRegMem => do
      let r ← regAt win 0
      return .addRegMem r (imm32At win 1)
  | .addMemReg => do
      let r ← regAt win 4
      return .addMemReg (imm32At win 0) r
  | .incReg => do
      let r ← regAt win 0
      return .incReg r
  | .incMem => .ok (.incMem (imm32At win 0))
  | .pushReg => do
      let r ← regAt win 0
      return .pushReg r
  | .pushMem => .ok (.pushMem (imm32At win 0))
  | .pushU8 => .ok (.pushU8 (imm8At win 0))
  | .pushU16 => .ok (.pushU16 (imm16At win 0))
  | .pushU32 => .ok (.pushU32 (imm32At win 0))
  | .popReg => do
      let r ← regAt win 0
      return .popReg r
  | .cmpReg => do
      let a ← regAt win 0
      let b ← regAt win 1
      return .cmpReg a b
  | .cmpU8 => .ok (.cmpU8 (imm8At win 0) (imm8At win 1))
  | .cmpU16 => .ok (.cmpU16 (imm16At win 0) (imm16At win 2))
  | .cmpU32 => .ok (.cmpU32 (imm32At win 0) (imm32At win 4))
  | .jump => .ok (.jump (imm32At win 0))
  | .jumpGe => .ok (.jumpGe (imm32At win 0))
  | .jumpGte => .ok (.jumpGte (imm32At win 0))
  | .jumpLt => .ok (.jumpLt (imm32At win 0))
  | .jumpLte => .ok (.jumpLte (imm32At win 0))
  | .call => .ok (.call (imm32At win 0))
  | .load => do
      let r ← regAt win 0
      return .load r (imm32At win 1)
  | .storeReg => do
      let r ← regAt win 0
      return .storeReg r (imm32At win 1)
  | .storeU8 => .ok (.storeU8 (imm32At win 0) (imm8At win 4))
  | .storeU16 => .ok (.storeU16 (imm32At win 0) (imm16At win 4))
  | .storeU32 => .ok (.storeU32 (imm32At win 0) (imm32At win 4))
  | .interrupt => .ok (.interrupt (imm8At win 0))
  | .interruptReg => do
      let r ← regAt win 0
      return .interruptReg r
  | .halt => .ok .halt
  | .ret => .ok .ret

/-- Why a list of bytes is no instruction. `truncated` is the model's own answer for a list that ends before the
instruction does (log 24); a fetch never gives it, since it reads the window it needs or raises. -/
inductive DecodeError where
  /-- The machine's own decode errors, InvalidOpCode and InvalidRegister; safe: the spec's. -/
  | raised (e : CpuError)
  /-- The list is shorter than the instruction; safe: the decoder stops. -/
  | truncated
deriving DecidableEq, Repr

/-- Decode the instruction at the head of a list of bytes: the instruction and the bytes after it. The checks come in
the order of R99: opcode byte, window, register bytes. -/
def decodeBytes : List Byte → Except DecodeError (Instr × List Byte)
  | [] => .error .truncated
  | b :: bytes =>
    match decodeOpcode b with
    | .error e => .error (.raised e)
    | .ok op =>
      if bytes.length < op.length - 1 then .error .truncated
      else
        match decodeWindow op (bytes.take (op.length - 1)) with
        | .error e => .error (.raised e)
        | .ok i => .ok (i, bytes.drop (op.length - 1))

/-- The bytes of a table word: byte k is bits 8k+7 .. 8k of the number, every bit from `nbits` on is 0. -/
def tableBytes (nbits w : Nat) : List Byte :=
  (List.range maxInstrLength).map (fun k => BitVec.ofNat 8 (w % 2 ^ nbits / 2 ^ (8 * k)))

/-- The instruction the decoder reads from a word numbered as spec/opcode_table.json numbers it. -/
def decodeTableWord (nbits w : Nat) : Option Instr :=
  match decodeBytes (tableBytes nbits w) with
  | .ok (i, _) => some i
  | .error _ => none

/-! ## The encoder -/

/-- The opcode an instruction is encoded with (R86: the immediate's width picks it). -/
def Instr.opcode : Instr → Opcode
  | .movRegReg _ _ => .movRegReg
  | .movRegU8 _ _ => .movRegU8
  | .movRegU16 _ _ => .movRegU16
  | .movRegU32 _ _ => .movRegU32
  | .movRegMem _ _ => .movRegMem
  | .movMemReg _ _ => .movMemReg
  | .movMemU8 _ _ => .movMemU8
  | .movMemU16 _ _ => .movMemU16
  | .movMemU32 _ _ => .movMemU32
  | .addRegReg _ _ => .addRegReg
  | .addRegU8 _ _ => .addRegU8
  | .addRegU16 _ _ => .addRegU16
  | .addRegU32 _ _ => .addRegU32
  | .addRegMem _ _ => .addRegMem
  | .addMemReg _ _ => .addMemReg
  | .incReg _ => .incReg
  | .incMem _ => .incMem
  | .pushReg _ => .pushReg
  | .pushMem _ => .pushMem
  | .pushU8 _ => .pushU8
  | .pushU16 _ => .pushU16
  | .pushU32 _ => .pushU32
  | .popReg _ => .popReg
  | .cmpReg _ _ => .cmpReg
  | .cmpU8 _ _ => .cmpU8
  | .cmpU16 _ _ => .cmpU16
  | .cmpU32 _ _ => .cmpU32
  | .jump _ => .jump
  | .jumpGe _ => .jumpGe
  | .jumpGte _ => .jumpGte
  | .jumpLt _ => .jumpLt
  | .jumpLte _ => .jumpLte
  | .call _ => .call
  | .load _ _ => .load
  | .storeReg _ _ => .storeReg
  | .storeU8 _ _ => .storeU8
  | .storeU16 _ _ => .storeU16
  | .storeU32 _ _ => .storeU32
  | .interrupt _ => .interrupt
  | .interruptReg _ => .interruptReg
  | .halt => .halt
  | .ret => .ret

/-- The length of an instruction in bytes (R80). -/
def Instr.length (i : Instr) : Nat := i.opcode.length

/-- The four bytes of a 32-bit operand, least significant first (R83). -/
def bytes32 (v : BitVec 32) : List Byte := [byteOf 32 v 0, byteOf 32 v 1, byteOf 32 v 2, byteOf 32 v 3]

/-- The two bytes of a 16-bit operand, least significant first (R83). -/
def bytes16 (v : BitVec 16) : List Byte := [byteOf 16 v 0, byteOf 16 v 1]

/-- The operand bytes of an instruction, in the layout of its format (R83). -/
def Instr.operandBytes : Instr → List Byte
  | .movRegReg a b => [a.toByte] ++ [b.toByte]
  | .movRegU8 r imm => [r.toByte] ++ [imm]
  | .movRegU16 r imm => [r.toByte] ++ bytes16 imm
  | .movRegU32 r imm => [r.toByte] ++ bytes32 imm
  | .movRegMem r addr => [r.toByte] ++ bytes32 addr
  | .movMemReg addr r => bytes32 addr ++ [r.toByte]
  | .movMemU8 addr imm => bytes32 addr ++ [imm]
  | .movMemU16 addr imm => bytes32 addr ++ bytes16 imm
  | .movMemU32 addr imm => bytes32 addr ++ bytes32 imm
  | .addRegReg a b => [a.toByte] ++ [b.toByte]
  | .addRegU8 r imm => [r.toByte] ++ [imm]
  | .addRegU16 r imm => [r.toByte] ++ bytes16 imm
  | .addRegU32 r imm => [r.toByte] ++ bytes32 imm
  | .addRegMem r addr => [r.toByte] ++ bytes32 addr
  | .addMemReg addr r => bytes32 addr ++ [r.toByte]
  | .incReg r => [r.toByte]
  | .incMem addr => bytes32 addr
  | .pushReg r => [r.toByte]
  | .pushMem addr => bytes32 addr
  | .pushU8 imm => [imm]
  | .pushU16 imm => bytes16 imm
  | .pushU32 imm => bytes32 imm
  | .popReg r => [r.toByte]
  | .cmpReg a b => [a.toByte] ++ [b.toByte]
  | .cmpU8 a b => [a] ++ [b]
  | .cmpU16 a b => bytes16 a ++ bytes16 b
  | .cmpU32 a b => bytes32 a ++ bytes32 b
  | .jump addr => bytes32 addr
  | .jumpGe addr => bytes32 addr
  | .jumpGte addr => bytes32 addr
  | .jumpLt addr => bytes32 addr
  | .jumpLte addr => bytes32 addr
  | .call addr => bytes32 addr
  | .load r addr => [r.toByte] ++ bytes32 addr
  | .storeReg r addr => [r.toByte] ++ bytes32 addr
  | .storeU8 addr imm => bytes32 addr ++ [imm]
  | .storeU16 addr imm => bytes32 addr ++ bytes16 imm
  | .storeU32 addr imm => bytes32 addr ++ bytes32 imm
  | .interrupt imm => [imm]
  | .interruptReg r => [r.toByte]
  | .halt => []
  | .ret => []

/-- The bytes of an instruction: the opcode byte, then the operand bytes (R80, R83). -/
def encode (i : Instr) : List Byte := i.opcode.toByte :: i.operandBytes

end Sys2Proof
end

