-- ==== Sys2Proof/Config.lean ====
section
/-!
DEFINITION. What a platform supplies: the values the model names for the inputs and the open parameters the spec gives
no number for (spec/00_scope.md R7, R10). `State.reset` starts from them; every operation and every statement is for
arbitrary values of the fields that hold them.
-/

namespace Sys2Proof

/-- The three 32-bit inputs sampled at reset and constant until the next (R7). -/
structure ResetInputs where
  /-- PS, the initial IP and the base of every address operand (R33). -/
  programStart : Word
  /-- STACK_START, the initial SP (R24). -/
  stackStart : Word
  /-- IVT, the absolute base address of the interrupt table (R34). -/
  interruptTable : Word
deriving DecidableEq, Repr

/-- The inputs of `State.reset`. DESIGN CHOICE (log 2), unsafe: the spec gives none. PS and IVT are 0; STACK_START is
the highest word-aligned address, the "top of the addressable space" of R24. -/
def Config.resetInputs : ResetInputs where
  programStart := 0
  stackStart := 0xFFFFFFFC#32
  interruptTable := 0

/-- FP_RESET in `State.reset`. DESIGN CHOICE (log 3), unsafe: the spec says only "initialized near SP" (R24). -/
def Config.fpReset : Word := 0xFFFFFFFC#32

/-- MEM_SIZE in `State.reset`. DESIGN CHOICE (log 1), unsafe: an open parameter from 1 to 2^32 (R10, R50). -/
def Config.memSize : Nat := 2 ^ 32

/-- What a byte reads as that neither the loader nor a store has written. DESIGN CHOICE (log 4), unsafe: the spec
leaves the content of memory at reset open (spec/93_implementation_defined.md P5). -/
def Config.unlistedByte : Byte := 0

end Sys2Proof
end

