-- ==== Sys2Proof/Machine/State.lean ====
section
/-!
DEFINITION. The state as the spec gives it (spec/10_state.md), as plain data; the reasons a step could stop other than
in a state of the machine (none, see `Fault` and `Refusal`); and the state right after reset.
-/

namespace Sys2Proof.Machine

/-- The register file: eleven 32-bit words (R20). -/
structure RegFile where
  ip : Word
  sp : Word
  fp : Word
  r1 : Word
  r2 : Word
  r3 : Word
  r4 : Word
  r5 : Word
  r6 : Word
  r7 : Word
  r8 : Word
deriving DecidableEq, Repr

/-- The run state (R36). `halted` is entered only by Halt; `faulted e` by any raised error (R15, C10). Neither is left
except by reset. -/
inductive RunState where
  | running
  | halted
  | faulted (e : CpuError)
deriving DecidableEq, Repr

/-- Memory as (address, byte) pairs: the bytes that differ from `Config.unlistedByte`, by rising address
(`Memory.wf`). -/
abbrev Memory := List Host.Cell

/-- The canonical form of a memory: addresses strictly rising, and no entry equal to what an unlisted address reads as,
so that equal memories are equal lists. -/
abbrev Memory.wf (m : Memory) : Prop :=
  m.Pairwise (fun c d => c.1 < d.1) ∧ ∀ c ∈ m, c.2 ≠ Config.unlistedByte

/-- The whole state of the machine (spec/10_state.md, opening; R41), with the parameters a step reads. -/
structure State where
  /-- The register file (R20). -/
  regs : RegFile
  /-- The last comparison outcome (R31). -/
  flags : Comparison
  /-- in_int, the guard that suppresses the frame of a nested interrupt (R35). -/
  inInt : Bool
  /-- The run state, the machine's status output (R9, R36). -/
  run : RunState
  /-- PS, STACK_START and IVT as sampled at the last reset (R7, R33, R34). -/
  inputs : ResetInputs
  /-- MEM_SIZE, the number of bytes of memory; addresses 0 .. memSize - 1 exist (R50). No step and no reset changes
  it. -/
  memSize : Nat
  /-- The bytes of memory (R38). -/
  mem : Memory
deriving DecidableEq, Repr

/-- Stops outside the machine's own states: none. Every error of the spec is a next state with `run = faulted e`, which
the spec describes (R15, R227, R228; log 5), so no step answers a fault. Safe: there is nothing to raise. -/
inductive Fault where
deriving DecidableEq, Repr

/-- Instructions without a meaning. -/
inductive Refusal where
  /-- The instruction has no meaning in this model yet. Raised by `exec`'s refused arms only, of which there are none;
  safe: the model stops. -/
  | notModelled (mnemonic : String)
deriving DecidableEq, Repr

/-- The machine right after reset (R41, R260), with the inputs and parameters of Config (logs 1 to 4): IP = PS,
SP = STACK_START, FP = FP_RESET, R1 .. R8 = 0, flags = Eq, in_int = false, run = Running, memory with nothing
listed. -/
def State.reset : State where
  regs :=
    { ip := Config.resetInputs.programStart
      sp := Config.resetInputs.stackStart
      fp := Config.fpReset
      r1 := 0
      r2 := 0
      r3 := 0
      r4 := 0
      r5 := 0
      r6 := 0
      r7 := 0
      r8 := 0 }
  flags := .eq
  inInt := false
  run := .running
  inputs := Config.resetInputs
  memSize := Config.memSize
  mem := []

end Sys2Proof.Machine
end

