-- ==== Sys2Proof/Machine/Ops.lean ====
section
/-!
DEFINITION. The named operations every instruction is built from: registers, checked addresses, memory
(spec/20_memory.md), the stack (spec/42_stack.md), the frame (spec/44_call_ret.md), raising an error
(spec/60_exceptions.md), interrupt entry (spec/46_interrupt_halt.md) and reset (spec/70_reset_and_hazards.md).

An operation that can raise answers `Except CpuError`; the state it would have changed is dropped with the error, so a
failing instruction writes nothing (R15, R228; decision D20).
-/

namespace Sys2Proof.Machine

/-! ## Parameters of the spec (R10) -/

/-- IVT_STRIDE: bytes between interrupt table entries (R10; C1, D15). -/
def ivtStride : Nat := 4

/-- FRAME_BYTES: bytes of a frame, and the value of its frame-size word (R10, R190; C3, D13). -/
def frameBytes : Nat := 24

/-- The numbers the spec gives the errors (R220, D3), for a status output. No step reads them (log 9). -/
def errorCode : CpuError → Nat
  | .invalidOpCode _ => 1
  | .invalidRegister _ => 2
  | .invalidAddress _ => 3
  | .stackOverflow => 4
  | .stackUnderflow => 5
  | .invalidComparison _ => 6

/-! ## Registers (R20, R22) -/

/-- x[r] (R13). -/
def State.reg (s : State) : Reg → Word
  | .ip => s.regs.ip
  | .sp => s.regs.sp
  | .fp => s.regs.fp
  | .r1 => s.regs.r1
  | .r2 => s.regs.r2
  | .r3 => s.regs.r3
  | .r4 => s.regs.r4
  | .r5 => s.regs.r5
  | .r6 => s.regs.r6
  | .r7 => s.regs.r7
  | .r8 => s.regs.r8

/-- x[r] <- v in a register file (R13). -/
def RegFile.set (f : RegFile) (r : Reg) (v : Word) : RegFile :=
  match r with
  | .ip => { f with ip := v }
  | .sp => { f with sp := v }
  | .fp => { f with fp := v }
  | .r1 => { f with r1 := v }
  | .r2 => { f with r2 := v }
  | .r3 => { f with r3 := v }
  | .r4 => { f with r4 := v }
  | .r5 => { f with r5 := v }
  | .r6 => { f with r6 := v }
  | .r7 => { f with r7 := v }
  | .r8 => { f with r8 := v }

/-- x[r] <- v (R13). -/
def State.setReg (s : State) (r : Reg) (v : Word) : State := { s with regs := s.regs.set r v }

/-! ## Raising an error (R15, R227, R228) -/

/-- The state a raised error leaves: only the run state changes (R228). -/
def State.raise (s : State) (e : CpuError) : State := { s with run := .faulted e }

/-- The outcome of an instruction that started in `s`: its result, or the error it raised (R15). -/
def finish (s : State) : Except CpuError State → Host.Outcome State Fault Refusal
  | .ok t => .next t
  | .error e => .next (s.raise e)

/-! ## Bytes of memory (R50 to R52) -/

/-- mem[a]: the listed byte, or what an unlisted address reads as. -/
def Memory.read : Memory → Nat → Byte
  | [], _ => Config.unlistedByte
  | (k, c) :: rest, a => if a = k then c else Memory.read rest a

/-- Put an entry in its place by rising address, over the entry of that address. -/
def Memory.insert : Memory → Nat → Byte → Memory
  | [], a, b => [(a, b)]
  | (k, c) :: rest, a, b =>
    if a < k then (a, b) :: (k, c) :: rest
    else if a = k then (a, b) :: rest
    else (k, c) :: Memory.insert rest a b

/-- mem[a] <- b, in canonical form: the byte an unlisted address reads as is not listed. -/
def Memory.write (m : Memory) (a : Nat) (b : Byte) : Memory :=
  if b = Config.unlistedByte then m.filter (fun c => c.1 != a) else m.insert a b

/-! ## Checked addresses (R51, R56) -/

/-- An address computation whose result is `n`: 2^32 or more raises StackOverflow (R56). -/
def checkAddress (n : Nat) : Except CpuError Unit :=
  if 2 ^ 32 ≤ n then .error .stackOverflow else .ok ()

/-- One byte access at `a`: first the address computation, then whether the byte exists (R51 to R53). -/
def checkByte (s : State) (a : Nat) : Except CpuError Unit :=
  if 2 ^ 32 ≤ a then .error .stackOverflow
  else if s.memSize ≤ a then .error (.invalidAddress (BitVec.ofNat 32 a))
  else .ok ()

/-- The checks of an n-byte access at a, a+1, .., in that order (R53). -/
def checkUp (s : State) (a : Nat) : Nat → Except CpuError Unit
  | 0 => .ok ()
  | n + 1 => do
    checkUp s a n
    checkByte s (a + n)

/-- The checks of a push of n bytes below `top`: addresses top-1, top-2, .., in that order; below 0 raises
StackUnderflow (R150). With n = 24 these are the stack checks of R191 and R210. -/
def checkDown (s : State) (top : Nat) : Nat → Except CpuError Unit
  | 0 => .ok ()
  | n + 1 => do
    checkDown s top n
    if top < n + 1 then .error .stackUnderflow
    else if s.memSize ≤ top - 1 - n then .error (.invalidAddress (BitVec.ofNat 32 (top - 1 - n)))
    else .ok ()

/-! ## Data accesses, little-endian (R53, R54, R55, R59) -/

/-- The little-endian value of the n bytes at a (R53). -/
def Memory.valueLE (m : Memory) (a : Nat) : Nat → Nat
  | 0 => 0
  | n + 1 => Memory.valueLE m a n + (m.read (a + n)).toNat * 2 ^ (8 * n)

/-- The low n bytes of v at a, a+1, .., least significant first (R54). -/
def Memory.storeLE (m : Memory) (a : Nat) (v : Word) : Nat → Memory
  | 0 => m
  | n + 1 => (Memory.storeLE m a v n).write (a + n) (byteOf 32 v n)

/-- MemRead(a, n), n at most 4 (R53). -/
def memRead (s : State) (a n : Nat) : Except CpuError Word := do
  checkUp s a n
  return BitVec.ofNat 32 (s.mem.valueLE a n)

/-- MemWrite(a, n, v): every check before any write (R54). -/
def memWrite (s : State) (a n : Nat) (v : Word) : Except CpuError State := do
  checkUp s a n
  return { s with mem := s.mem.storeLE a v n }

/-- MemRange(a, n): the n bytes at a (R55). -/
def memRange (s : State) (a n : Nat) : Except CpuError (List Byte) := do
  checkUp s a n
  return (List.range n).map (fun k => s.mem.read (a + k))

/-! ## Stack words (R60, R150, R151) -/

/-- The word stored in stack order at t .. t+3: the byte at t+3 is the least significant (R60, R151; C2). -/
def Memory.stackWord (m : Memory) (t : Nat) : Word :=
  BitVec.ofNat 32
    ((m.read t).toNat * 2 ^ 24 + (m.read (t + 1)).toNat * 2 ^ 16 + (m.read (t + 2)).toNat * 2 ^ 8 +
      (m.read (t + 3)).toNat)

/-- byte_k(v) at top-1-k for k = 0, 1, 2, 3 (R60, R150). -/
def Memory.storeStack (m : Memory) (top : Nat) (v : Word) : Memory :=
  (((m.write (top - 1) (byteOf 32 v 0)).write (top - 2) (byteOf 32 v 1)).write (top - 3) (byteOf 32 v 2)).write
    (top - 4) (byteOf 32 v 3)

/-- The effect of Push(v), its checks already made (R150). -/
def pushWord (v : Word) (s : State) : State :=
  { s with mem := s.mem.storeStack (s.reg .sp).toNat v }.setReg .sp (s.reg .sp - 4#32)

/-- Push(v) (R150). -/
def push (v : Word) (s : State) : Except CpuError State := do
  checkDown s (s.reg .sp).toNat 4
  return pushWord v s

/-- The effect of Pop(), its checks already made: the word and the state with SP advanced (R151). -/
def popWord (s : State) : Word × State :=
  (s.mem.stackWord (s.reg .sp).toNat, s.setReg .sp (s.reg .sp + 4#32))

/-- Pop() (R151). -/
def pop (s : State) : Except CpuError (Word × State) := do
  checkUp s (s.reg .sp).toNat 4
  checkAddress ((s.reg .sp).toNat + 4)
  return popWord s

/-! ## The IP advance (R96) -/

/-- The sequential advance by `len` bytes: no wrap, 2^32 raises StackOverflow (R96, D26). -/
def advance (len : Nat) (s : State) : Except CpuError State := do
  checkAddress ((s.reg .ip).toNat + len)
  return s.setReg .ip (s.reg .ip + BitVec.ofNat 32 len)

/-! ## Frames (R190) -/

/-- Push the six words of a frame, their checks already made, and set FP to the new SP (R190, R191). -/
def pushFrame (ret : Word) (s : State) : State :=
  let s1 := pushWord (s.reg .r1) s
  let s2 := pushWord (s.reg .r2) s1
  let s3 := pushWord (s.reg .r3) s2
  let s4 := pushWord (s.reg .r4) s3
  let s5 := pushWord ret s4
  let s6 := pushWord (BitVec.ofNat 32 frameBytes) s5
  s6.setReg .fp (s6.reg .sp)

/-- Unwind the frame at FP, its checks already made: SP <- F, six pops, FP <- F + frame-size word, IP <- return
address (R192). -/
def unwindFrame (s : State) : State :=
  let f := s.reg .fp
  let size := popWord (s.setReg .sp f)
  let ret := popWord size.2
  let w4 := popWord ret.2
  let w3 := popWord w4.2
  let w2 := popWord w3.2
  let w1 := popWord w2.2
  (((((w1.2.setReg .r4 w4.1).setReg .r3 w3.1).setReg .r2 w2.1).setReg .r1 w1.1).setReg .fp (f + size.1)).setReg
    .ip ret.1

/-- Return from a Call or from an interrupt handler: the checks of R192 in their order, then the unwinding. -/
def returnFromFrame (s : State) : Except CpuError State := do
  let f := (s.reg .fp).toNat
  checkUp s f frameBytes
  checkAddress (f + frameBytes)
  checkAddress (f + (s.mem.stackWord f).toNat)
  return unwindFrame s

/-! ## Interrupt entry (R210, R231) -/

/-- The checks of Dispatch that only a context-saving entry makes: the room for the frame, then the return address
(R210). -/
def checkFrameSave (s : State) (len : Nat) : Except CpuError Unit :=
  if s.inInt then .ok ()
  else do
    checkDown s (s.reg .sp).toNat frameBytes
    checkAddress ((s.reg .ip).toNat + len)

/-- The context save of Dispatch: a frame with the address of the next instruction, and in_int set; nothing when in_int
is already set (R210, R231). -/
def saveContext (s : State) (len : Nat) : State :=
  if s.inInt then s
  else { pushFrame (s.reg .ip + BitVec.ofNat 32 len) s with inInt := true }

/-- Dispatch(idx, L): the entry of an interrupt, the one exception entry of this machine (R210, R231). The handler
address is absolute and is read after the pushes. -/
def dispatch (idx len : Nat) (s : State) : Except CpuError State := do
  let t := s.inputs.interruptTable.toNat + idx * ivtStride
  checkFrameSave s len
  checkUp s t 4
  let saved := saveContext s len
  return saved.setReg .ip (BitVec.ofNat 32 (saved.mem.valueLE t 4))

/-! ## Reset (R260) -/

/-- The reset event: samples the three inputs and sets every piece of state but memory and its size (R260, R262).
`fpReset` is the open FP_RESET (R24, D5). It is the host's, not a step of the engine. -/
def applyReset (inputs : ResetInputs) (fpReset : Word) (s : State) : State where
  regs :=
    { ip := inputs.programStart
      sp := inputs.stackStart
      fp := fpReset
      r1 := 0
      r2 := 0
      r3 := 0
      r4 := 0
      r5 := 0
      r6 := 0
      r7 := 0
      r8 := 0 }
  flags := .eq
  inInt := false
  run := .running
  inputs := inputs
  memSize := s.memSize
  mem := s.mem

end Sys2Proof.Machine
end

