-- ==== Sys2Proof/Machine/Operands.lean ====
section
/-!
DEFINITION. Operand forms: program-relative addresses (spec/20_memory.md R57), widening of immediates
(spec/30_encoding.md R89), and a register destination with the IP rule (R96, R97).
-/

namespace Sys2Proof.Machine

/-- EA(off) = PS + off; 2^32 or more raises StackOverflow (R57). -/
def effectiveAddress (s : State) (off : Word) : Except CpuError Nat := do
  checkAddress (s.inputs.programStart.toNat + off.toNat)
  return s.inputs.programStart.toNat + off.toNat

/-- An immediate as a 32-bit word: zero-extended (R89, D27). -/
def immediate (w : Nat) (imm : BitVec w) : Word := imm.setWidth 32

/-- The word a memory operand names: MemRead(EA(off), 4) (R57, R63). -/
def loadOperand (s : State) (off : Word) : Except CpuError Word := do
  let a ← effectiveAddress s off
  memRead s a 4

/-- MemWrite(EA(off), n, v) (R57, R63). -/
def storeOperand (s : State) (off : Word) (n : Nat) (v : Word) : Except CpuError State := do
  let a ← effectiveAddress s off
  memWrite s a n v

/-- Write a destination register and finish: a write to IP is the transfer, any other write is followed by the
sequential advance of `op`'s length (R96, R97 item 4, D18). -/
def writeDestination (op : Opcode) (dst : Reg) (v : Word) (s : State) : Except CpuError State :=
  if dst = .ip then .ok (s.setReg .ip v) else advance op.length (s.setReg dst v)

/-- x[dst] <- (x[dst] + v) mod 2^32 (R130). -/
def addToDestination (op : Opcode) (dst : Reg) (v : Word) (s : State) : Except CpuError State :=
  writeDestination op dst (s.reg dst + v) s

/-- A memory word replaced by its sum with v modulo 2^32, at the same four bytes (R130, R136, R138). -/
def addToMemory (op : Opcode) (off v : Word) (s : State) : Except CpuError State := do
  let a ← effectiveAddress s off
  let m ← memRead s a 4
  let t ← memWrite s a 4 (m + v)
  advance op.length t

/-- Store the low n bytes of v at EA(off), then advance (R110, R206). -/
def storeAndAdvance (op : Opcode) (off : Word) (n : Nat) (v : Word) (s : State) : Except CpuError State := do
  let t ← storeOperand s off n v
  advance op.length t

/-- Push v, then advance (R159). -/
def pushAndAdvance (op : Opcode) (v : Word) (s : State) : Except CpuError State := do
  let t ← push v s
  advance op.length t

/-- Transfer to EA(off): the target is checked against 2^32 only (R175). -/
def jumpTo (off : Word) (s : State) : Except CpuError State := do
  let a ← effectiveAddress s off
  return s.setReg .ip (BitVec.ofNat 32 a)

end Sys2Proof.Machine
end

