-- ==== Sys2Proof/Machine/Flags.lean ====
section
/-!
DEFINITION. The comparison flag: the compare function (spec/43_cmp_jump.md R170) and the conditions of the four
conditional jumps (R181).
-/

namespace Sys2Proof.Machine

/-- Compare(a, b) on unsigned magnitudes: Gt, Lt or Eq, never another outcome (R170, D9). -/
def compareOutcome (a b : Nat) : Comparison := if b < a then .gt else if a < b then .lt else .eq

/-- flags <- Compare(a, b), nothing else, then advance (R170 to R174). -/
def compareAndAdvance (op : Opcode) (a b : Nat) (s : State) : Except CpuError State :=
  advance op.length { s with flags := compareOutcome a b }

/-- The condition of JumpGe: Gt only (R177, R181). -/
def takenGe : Comparison → Bool
  | .gt => true
  | .eq | .ne | .lt | .lte | .gte => false

/-- The condition of JumpGte: Gt or Gte (R178, R181). -/
def takenGte : Comparison → Bool
  | .gt | .gte => true
  | .eq | .ne | .lt | .lte => false

/-- The condition of JumpLt: Lt only (R179, R181). -/
def takenLt : Comparison → Bool
  | .lt => true
  | .eq | .ne | .lte | .gt | .gte => false

/-- The condition of JumpLte: Lt or Lte (R180, R181). -/
def takenLte : Comparison → Bool
  | .lt | .lte => true
  | .eq | .ne | .gt | .gte => false

/-- A conditional jump: the target is computed, and checked, only when taken (R175, D6). -/
def jumpIf (op : Opcode) (taken : Bool) (off : Word) (s : State) : Except CpuError State :=
  if taken then jumpTo off s else advance op.length s

end Sys2Proof.Machine
end

