-- ==== Sys2Proof/Machine/AddInc.lean ====
section
/-!
DEFINITION. The Add and Inc families (spec/41_add_inc.md R130 to R139): sums modulo 2^32, no flag written.
-/

namespace Sys2Proof.Machine

/-- AddRegReg: x[dst] <- (x[dst] + x[src]) mod 2^32 (R131). -/
def execAddRegReg (dst src : Reg) (s : State) : Host.Outcome State Fault Refusal :=
  finish s (addToDestination .addRegReg dst (s.reg src) s)

/-- AddRegU8: x[dst] <- (x[dst] + zext_32(imm8)) mod 2^32 (R132). -/
def execAddRegU8 (dst : Reg) (imm : BitVec 8) (s : State) : Host.Outcome State Fault Refusal :=
  finish s (addToDestination .addRegU8 dst (immediate 8 imm) s)

/-- AddRegU16: x[dst] <- (x[dst] + zext_32(imm16)) mod 2^32 (R133). -/
def execAddRegU16 (dst : Reg) (imm : BitVec 16) (s : State) : Host.Outcome State Fault Refusal :=
  finish s (addToDestination .addRegU16 dst (immediate 16 imm) s)

/-- AddRegU32: x[dst] <- (x[dst] + zext_32(imm32)) mod 2^32 (R134). -/
def execAddRegU32 (dst : Reg) (imm : BitVec 32) (s : State) : Host.Outcome State Fault Refusal :=
  finish s (addToDestination .addRegU32 dst (immediate 32 imm) s)

/-- AddRegMem: x[dst] <- (x[dst] + MemRead(EA(addr), 4)) mod 2^32 (R135). -/
def execAddRegMem (dst : Reg) (addr : Word) (s : State) : Host.Outcome State Fault Refusal :=
  finish s (do
    let m ← loadOperand s addr
    addToDestination .addRegMem dst m s)

/-- AddMemReg: the word at EA(addr) <- its sum with x[src] mod 2^32 (R136). -/
def execAddMemReg (addr : Word) (src : Reg) (s : State) : Host.Outcome State Fault Refusal :=
  finish s (addToMemory .addMemReg addr (s.reg src) s)

/-- IncReg: x[reg] <- (x[reg] + 1) mod 2^32 (R137). -/
def execIncReg (reg : Reg) (s : State) : Host.Outcome State Fault Refusal :=
  finish s (addToDestination .incReg reg 1 s)

/-- IncMem: the word at EA(addr) <- its value + 1 mod 2^32 (R138). -/
def execIncMem (addr : Word) (s : State) : Host.Outcome State Fault Refusal :=
  finish s (addToMemory .incMem addr 1 s)

end Sys2Proof.Machine
end

