-- ==== Sys2Proof/Machine/CallRet.lean ====
section
/-!
DEFINITION. Call and Ret (spec/44_call_ret.md R190 to R194).
-/

namespace Sys2Proof.Machine

/-- Call's checks and effects: the room for the frame, the return address, the target, then the frame and the transfer
(R191). -/
def callTo (addr : Word) (s : State) : Except CpuError State := do
  checkDown s (s.reg .sp).toNat frameBytes
  checkAddress ((s.reg .ip).toNat + Opcode.call.length)
  let target ← effectiveAddress s addr
  return (pushFrame (s.reg .ip + BitVec.ofNat 32 Opcode.call.length) s).setReg .ip (BitVec.ofNat 32 target)

/-- Call: save R1 to R4 and the return address in a frame, jump to EA(addr) (R191). -/
def execCall (addr : Word) (s : State) : Host.Outcome State Fault Refusal :=
  finish s (callTo addr s)

/-- Ret: unwind the frame at FP (R192); also the return from an interrupt handler (R232). -/
def execRet (s : State) : Host.Outcome State Fault Refusal :=
  finish s (returnFromFrame s)

end Sys2Proof.Machine
end

