-- ==== Sys2Proof/Machine/CmpJump.lean ====
section
/-!
DEFINITION. Compare and jump (spec/43_cmp_jump.md R170 to R181).
-/

namespace Sys2Proof.Machine

/-- CmpReg: flags <- Compare(x[a], x[b]) (R171). -/
def execCmpReg (a b : Reg) (s : State) : Host.Outcome State Fault Refusal :=
  finish s (compareAndAdvance .cmpReg (s.reg a).toNat (s.reg b).toNat s)

/-- CmpU8: flags <- Compare(a, b) (R172). -/
def execCmpU8 (a b : BitVec 8) (s : State) : Host.Outcome State Fault Refusal :=
  finish s (compareAndAdvance .cmpU8 a.toNat b.toNat s)

/-- CmpU16: flags <- Compare(a, b) (R173). -/
def execCmpU16 (a b : BitVec 16) (s : State) : Host.Outcome State Fault Refusal :=
  finish s (compareAndAdvance .cmpU16 a.toNat b.toNat s)

/-- CmpU32: flags <- Compare(a, b) (R174). -/
def execCmpU32 (a b : BitVec 32) (s : State) : Host.Outcome State Fault Refusal :=
  finish s (compareAndAdvance .cmpU32 a.toNat b.toNat s)

/-- Jump: IP <- EA(addr) (R176). -/
def execJump (addr : Word) (s : State) : Host.Outcome State Fault Refusal :=
  finish s (jumpTo addr s)

/-- JumpGe: IP <- EA(addr) if flags is Gt (R177). -/
def execJumpGe (addr : Word) (s : State) : Host.Outcome State Fault Refusal :=
  finish s (jumpIf .jumpGe (takenGe s.flags) addr s)

/-- JumpGte: IP <- EA(addr) if flags is Gt or Gte (R178). -/
def execJumpGte (addr : Word) (s : State) : Host.Outcome State Fault Refusal :=
  finish s (jumpIf .jumpGte (takenGte s.flags) addr s)

/-- JumpLt: IP <- EA(addr) if flags is Lt (R179). -/
def execJumpLt (addr : Word) (s : State) : Host.Outcome State Fault Refusal :=
  finish s (jumpIf .jumpLt (takenLt s.flags) addr s)

/-- JumpLte: IP <- EA(addr) if flags is Lt or Lte (R180). -/
def execJumpLte (addr : Word) (s : State) : Host.Outcome State Fault Refusal :=
  finish s (jumpIf .jumpLte (takenLte s.flags) addr s)

end Sys2Proof.Machine
end

