-- ==== Sys2Proof/Machine/LoadStore.lean ====
section
/-!
DEFINITION. Load and Store (spec/45_load_store.md R200 to R206).
-/

namespace Sys2Proof.Machine

/-- Load: x[dst] <- MemRead(EA(addr), 4) (R200; the operand form is decision D17, log 14). -/
def execLoad (dst : Reg) (addr : Word) (s : State) : Host.Outcome State Fault Refusal :=
  finish s (do
    let v ← loadOperand s addr
    writeDestination .load dst v s)

/-- StoreReg: MemWrite(EA(addr), 4, x[src]) (R201). -/
def execStoreReg (src : Reg) (addr : Word) (s : State) : Host.Outcome State Fault Refusal :=
  finish s (storeAndAdvance .storeReg addr 4 (s.reg src) s)

/-- StoreU8: MemWrite(EA(addr), 1, imm8) (R202). -/
def execStoreU8 (addr : Word) (imm : BitVec 8) (s : State) : Host.Outcome State Fault Refusal :=
  finish s (storeAndAdvance .storeU8 addr 1 (immediate 8 imm) s)

/-- StoreU16: MemWrite(EA(addr), 2, imm16) (R203). -/
def execStoreU16 (addr : Word) (imm : BitVec 16) (s : State) : Host.Outcome State Fault Refusal :=
  finish s (storeAndAdvance .storeU16 addr 2 (immediate 16 imm) s)

/-- StoreU32: MemWrite(EA(addr), 4, imm32) (R204). -/
def execStoreU32 (addr : Word) (imm : BitVec 32) (s : State) : Host.Outcome State Fault Refusal :=
  finish s (storeAndAdvance .storeU32 addr 4 (immediate 32 imm) s)

end Sys2Proof.Machine
end

