-- ==== Sys2Proof/Machine/Mov.lean ====
section
/-!
DEFINITION. The Mov family (spec/40_mov.md R110 to R119). No flag is written (R110).
-/

namespace Sys2Proof.Machine

/-- MovRegReg: x[dst] <- x[src] (R111). -/
def execMovRegReg (dst src : Reg) (s : State) : Host.Outcome State Fault Refusal :=
  finish s (writeDestination .movRegReg dst (s.reg src) s)

/-- MovRegU8: x[dst] <- zext_32(imm8) (R112). -/
def execMovRegU8 (dst : Reg) (imm : BitVec 8) (s : State) : Host.Outcome State Fault Refusal :=
  finish s (writeDestination .movRegU8 dst (immediate 8 imm) s)

/-- MovRegU16: x[dst] <- zext_32(imm16) (R113). -/
def execMovRegU16 (dst : Reg) (imm : BitVec 16) (s : State) : Host.Outcome State Fault Refusal :=
  finish s (writeDestination .movRegU16 dst (immediate 16 imm) s)

/-- MovRegU32: x[dst] <- zext_32(imm32) (R114). -/
def execMovRegU32 (dst : Reg) (imm : BitVec 32) (s : State) : Host.Outcome State Fault Refusal :=
  finish s (writeDestination .movRegU32 dst (immediate 32 imm) s)

/-- MovRegMem: x[dst] <- MemRead(EA(addr), 4) (R115). -/
def execMovRegMem (dst : Reg) (addr : Word) (s : State) : Host.Outcome State Fault Refusal :=
  finish s (do
    let v ← loadOperand s addr
    writeDestination .movRegMem dst v s)

/-- MovMemReg: MemWrite(EA(addr), 4, x[src]) (R116). -/
def execMovMemReg (addr : Word) (src : Reg) (s : State) : Host.Outcome State Fault Refusal :=
  finish s (storeAndAdvance .movMemReg addr 4 (s.reg src) s)

/-- MovMemU8: MemWrite(EA(addr), 1, imm8) (R117). -/
def execMovMemU8 (addr : Word) (imm : BitVec 8) (s : State) : Host.Outcome State Fault Refusal :=
  finish s (storeAndAdvance .movMemU8 addr 1 (immediate 8 imm) s)

/-- MovMemU16: MemWrite(EA(addr), 2, imm16) (R118). -/
def execMovMemU16 (addr : Word) (imm : BitVec 16) (s : State) : Host.Outcome State Fault Refusal :=
  finish s (storeAndAdvance .movMemU16 addr 2 (immediate 16 imm) s)

/-- MovMemU32: MemWrite(EA(addr), 4, imm32) (R119). -/
def execMovMemU32 (addr : Word) (imm : BitVec 32) (s : State) : Host.Outcome State Fault Refusal :=
  finish s (storeAndAdvance .movMemU32 addr 4 (immediate 32 imm) s)

end Sys2Proof.Machine
end

