-- ==== Sys2Proof/Machine/Stack.lean ====
section
/-!
DEFINITION. Push and Pop (spec/42_stack.md R150 to R159). Every stack entry is one 32-bit word.
-/

namespace Sys2Proof.Machine

/-- PushReg: Push(x[src]), the value before the push (R152). -/
def execPushReg (src : Reg) (s : State) : Host.Outcome State Fault Refusal :=
  finish s (pushAndAdvance .pushReg (s.reg src) s)

/-- PushMem: Push(MemRead(EA(addr), 4)), the read before the push (R153). -/
def execPushMem (addr : Word) (s : State) : Host.Outcome State Fault Refusal :=
  finish s (do
    let m ← loadOperand s addr
    pushAndAdvance .pushMem m s)

/-- PushU8: Push(zext_32(imm8)) (R154). -/
def execPushU8 (imm : BitVec 8) (s : State) : Host.Outcome State Fault Refusal :=
  finish s (pushAndAdvance .pushU8 (immediate 8 imm) s)

/-- PushU16: Push(zext_32(imm16)) (R155). -/
def execPushU16 (imm : BitVec 16) (s : State) : Host.Outcome State Fault Refusal :=
  finish s (pushAndAdvance .pushU16 (immediate 16 imm) s)

/-- PushU32: Push(zext_32(imm32)) (R156). -/
def execPushU32 (imm : BitVec 32) (s : State) : Host.Outcome State Fault Refusal :=
  finish s (pushAndAdvance .pushU32 (immediate 32 imm) s)

/-- PopReg: x[dst] <- Pop(), written after SP has advanced (R157). -/
def execPopReg (dst : Reg) (s : State) : Host.Outcome State Fault Refusal :=
  finish s (do
    let popped ← pop s
    writeDestination .popReg dst popped.1 popped.2)

end Sys2Proof.Machine
end

