-- ==== Sys2Proof/Machine/System.lean ====
section
/-!
DEFINITION. Interrupt, InterruptReg and Halt (spec/46_interrupt_halt.md R210 to R213).
-/

namespace Sys2Proof.Machine

/-- Interrupt: Dispatch(zext_32(idx), 2) (R211). -/
def execInterrupt (idx : BitVec 8) (s : State) : Host.Outcome State Fault Refusal :=
  finish s (dispatch idx.toNat Opcode.interrupt.length s)

/-- InterruptReg: Dispatch(x[reg], 2), the register read before anything is pushed (R212). -/
def execInterruptReg (reg : Reg) (s : State) : Host.Outcome State Fault Refusal :=
  finish s (dispatch (s.reg reg).toNat Opcode.interruptReg.length s)

/-- Halt: run <- Halted, IP unchanged (R213, D19). -/
def execHalt (s : State) : Host.Outcome State Fault Refusal :=
  .next { s with run := .halted }

end Sys2Proof.Machine
end

