-- ==== Sys2Proof/Machine/Dispatch.lean ====
section
/-!
DEFINITION. One arm per instruction, each one direct call of its meaning.
-/

namespace Sys2Proof.Machine

def exec (i : Instr) (s : State) : Host.Outcome State Fault Refusal :=
  match i with
  | .movRegReg dst src => Sys2Proof.Machine.execMovRegReg dst src s
  | .movRegU8 dst imm => Sys2Proof.Machine.execMovRegU8 dst imm s
  | .movRegU16 dst imm => Sys2Proof.Machine.execMovRegU16 dst imm s
  | .movRegU32 dst imm => Sys2Proof.Machine.execMovRegU32 dst imm s
  | .movRegMem dst addr => Sys2Proof.Machine.execMovRegMem dst addr s
  | .movMemReg addr src => Sys2Proof.Machine.execMovMemReg addr src s
  | .movMemU8 addr imm => Sys2Proof.Machine.execMovMemU8 addr imm s
  | .movMemU16 addr imm => Sys2Proof.Machine.execMovMemU16 addr imm s
  | .movMemU32 addr imm => Sys2Proof.Machine.execMovMemU32 addr imm s
  | .addRegReg dst src => Sys2Proof.Machine.execAddRegReg dst src s
  | .addRegU8 dst imm => Sys2Proof.Machine.execAddRegU8 dst imm s
  | .addRegU16 dst imm => Sys2Proof.Machine.execAddRegU16 dst imm s
  | .addRegU32 dst imm => Sys2Proof.Machine.execAddRegU32 dst imm s
  | .addRegMem dst addr => Sys2Proof.Machine.execAddRegMem dst addr s
  | .addMemReg addr src => Sys2Proof.Machine.execAddMemReg addr src s
  | .incReg reg => Sys2Proof.Machine.execIncReg reg s
  | .incMem addr => Sys2Proof.Machine.execIncMem addr s
  | .pushReg src => Sys2Proof.Machine.execPushReg src s
  | .pushMem addr => Sys2Proof.Machine.execPushMem addr s
  | .pushU8 imm => Sys2Proof.Machine.execPushU8 imm s
  | .pushU16 imm => Sys2Proof.Machine.execPushU16 imm s
  | .pushU32 imm => Sys2Proof.Machine.execPushU32 imm s
  | .popReg dst => Sys2Proof.Machine.execPopReg dst s
  | .cmpReg a b => Sys2Proof.Machine.execCmpReg a b s
  | .cmpU8 a b => Sys2Proof.Machine.execCmpU8 a b s
  | .cmpU16 a b => Sys2Proof.Machine.execCmpU16 a b s
  | .cmpU32 a b => Sys2Proof.Machine.execCmpU32 a b s
  | .jump addr => Sys2Proof.Machine.execJump addr s
  | .jumpGe addr => Sys2Proof.Machine.execJumpGe addr s
  | .jumpGte addr => Sys2Proof.Machine.execJumpGte addr s
  | .jumpLt addr => Sys2Proof.Machine.execJumpLt addr s
  | .jumpLte addr => Sys2Proof.Machine.execJumpLte addr s
  | .call addr => Sys2Proof.Machine.execCall addr s
  | .load dst addr => Sys2Proof.Machine.execLoad dst addr s
  | .storeReg src addr => Sys2Proof.Machine.execStoreReg src addr s
  | .storeU8 addr imm => Sys2Proof.Machine.execStoreU8 addr imm s
  | .storeU16 addr imm => Sys2Proof.Machine.execStoreU16 addr imm s
  | .storeU32 addr imm => Sys2Proof.Machine.execStoreU32 addr imm s
  | .interrupt idx => Sys2Proof.Machine.execInterrupt idx s
  | .interruptReg reg => Sys2Proof.Machine.execInterruptReg reg s
  | .halt => Sys2Proof.Machine.execHalt s
  | .ret => Sys2Proof.Machine.execRet s

end Sys2Proof.Machine
end

