-- ==== Sys2Proof/Machine/Fetch.lean ====
section
/-!
DEFINITION. Fetching and decoding the instruction at IP (spec/30_encoding.md R94, R95), and placing one there (the
loader's side, R266; log 7).
-/

namespace Sys2Proof.Machine

/-- Fetch and decode, the checks in the order of R99: opcode byte readable, opcode valid, window readable, register
bytes valid. PS is not added: IP is absolute (R94). -/
def fetch (s : State) : Except CpuError Instr := do
  let ip := (s.reg .ip).toNat
  checkByte s ip
  let op ← decodeOpcode (s.mem.read ip)
  let win ← memRange s (ip + 1) (op.length - 1)
  decodeWindow op win

/-- Write bytes at a, a+1, .., leaving out those outside memory. -/
def placeBytes (memSize : Nat) (m : Memory) (a : Nat) : List Byte → Memory
  | [] => m
  | b :: rest => placeBytes memSize (if a < memSize then m.write a b else m) (a + 1) rest

/-- The state with the bytes of a table word stored at IP, and the engine Running. -/
def placeAtIp (s : State) (nbits w : Nat) : State :=
  { s with run := .running, mem := placeBytes s.memSize s.mem (s.reg .ip).toNat (tableBytes nbits w) }

end Sys2Proof.Machine
end

