-- ==== Sys2Proof/Machine/Step.lean ====
section
/-!
DEFINITION. The step (spec/30_encoding.md R93): in Running, fetch, decode and execute; in Halted or Faulted, no change.
-/

namespace Sys2Proof.Machine

/-- One step of the engine (R93 to R96). A fetch or decode error leaves everything but `run` as it was (R228). -/
def step (s : State) : Host.Outcome State Fault Refusal :=
  match s.run with
  | .running =>
    match fetch s with
    | .ok i => exec i s
    | .error e => .next (s.raise e)
  | .halted => .next s
  | .faulted _ => .next s

/-- `s` with the instruction of a table word stored where the next step fetches it. -/
def State.withFetchWord (s : State) (nbits w : Nat) : State := placeAtIp s nbits w

end Sys2Proof.Machine
end

