-- ==== Sys2Proof/Safety.lean ====
section
/-!
DEFINITION. What counts as a well-formed state and as a safe run, in the terms the statements use.
-/

namespace Sys2Proof.Machine

/-- The parameters are in the range the spec gives them: 1 <= MEM_SIZE <= 2^32 (R10, R50). -/
abbrev State.memSizeLegal (s : State) : Prop := 1 ≤ s.memSize ∧ s.memSize ≤ 2 ^ 32

/-- Memory holds bytes at addresses 0 .. MEM_SIZE - 1 only, in canonical form (R50). -/
abbrev State.memLegal (s : State) : Prop := s.mem.wf ∧ ∀ c ∈ s.mem, c.1 < s.memSize

/-- The flag holds one of the three outcomes a compare can produce (R32). -/
abbrev State.flagsLegal (s : State) : Prop := s.flags = .eq ∨ s.flags = .lt ∨ s.flags = .gt

/-- The run state is none that no rule raises: not Faulted(InvalidComparison) (R226). -/
abbrev State.runLegal (s : State) : Prop := ∀ b : Byte, s.run ≠ .faulted (.invalidComparison b)

/-- The invariant of the machine. -/
abbrev State.Legal (s : State) : Prop := s.memSizeLegal ∧ s.memLegal ∧ s.flagsLegal ∧ s.runLegal

/-- `t` is reached from `s` by some number of steps. -/
def Reaches (s t : State) : Prop := ∃ k : Nat, Host.Core.run core k s = .next t

/-- A successful end of a run: Halted (R19). -/
abbrev State.finished (s : State) : Prop := s.run = .halted

/-- A failed end of a run: Faulted, never successful (R19). -/
abbrev State.failed (s : State) : Prop := ∃ e, s.run = .faulted e

/-- A safe run: nothing reached from `s` is Faulted. -/
def Safe (s : State) : Prop := ∀ t, Reaches s t → ¬ t.failed

end Sys2Proof.Machine
end

