-- ==== Sys2Proof/WellFormed.lean ====
section
/-!
DEFINITION. Well-formedness. The operand types of `Instr` leave no ill-formed instruction to write (spec/30_encoding.md
R91: every address and every immediate is legal, a register operand is a register), so the checks are those on BYTES: a
byte string is an instruction when its first byte is an opcode, its length is that opcode's, and its register bytes name
registers (R80, R87, R92). An instruction is well-formed when its encoding is.
-/

namespace Sys2Proof

/-- The offsets of a format's register operands, counted in the operand window (R83). -/
def registerOffsets : List OperandKind → Nat → List Nat
  | [], _ => []
  | .reg :: rest, at' => at' :: registerOffsets rest (at' + 1)
  | k :: rest, at' => registerOffsets rest (at' + k.size)

/-- A byte string that is exactly one instruction: valid opcode byte, exact length, valid register bytes (R92). -/
def wellFormedBytes : List Byte → Bool
  | [] => false
  | b :: win =>
    match Opcode.ofByte b with
    | none => false
    | some op =>
      win.length + 1 == op.length &&
        (registerOffsets op.format.operands 0).all (fun k => (Reg.ofByte (windowByte win k)).isSome)

/-- An instruction is well-formed when its encoding is an instruction's byte string. -/
def Instr.wellFormed (i : Instr) : Bool := wellFormedBytes (encode i)

end Sys2Proof
end

