-- ==== Sys2Proof/Certificates/Slice0/Obligations.lean ====
section
/-!
DEFINITION. The statements for the provers. A statement of an instruction's result says the whole next state: every
register, the flag, in_int, the run state, the inputs, MEM_SIZE and every byte of memory. No statement fixes a value of
MEM_SIZE, PS, STACK_START, IVT, FP or unwritten memory.
-/

namespace Sys2Proof.Claims

open Sys2Proof.Machine

/-! ## Terms of the statements -/

/-- The instruction answers a next state with the property. -/
def Completes (i : Instr) (s : State) (P : State → Prop) : Prop := ∃ t, exec i s = .next t ∧ P t

/-- The instruction raises the error: the next state is Faulted with it and nothing else changes (R15, R228; that
nothing else changes is the spec's decision D20). -/
def RaisesError (i : Instr) (s : State) (e : CpuError) : Prop := exec i s = .next { s with run := .faulted e }

/-- The instruction raises the error (R15), with the property of the state it leaves. -/
def Fails (i : Instr) (s : State) (e : CpuError) (P : State → Prop) : Prop :=
  Completes i s (fun t => t.run = .faulted e ∧ P t)

/-- The flag, in_int, the run state, the inputs and MEM_SIZE are unchanged. -/
def SameControl (s t : State) : Prop :=
  t.flags = s.flags ∧ t.inInt = s.inInt ∧ t.run = s.run ∧ t.inputs = s.inputs ∧ t.memSize = s.memSize

/-- Every byte of memory reads as before. -/
def SameMemory (s t : State) : Prop := ∀ a, t.mem.read a = s.mem.read a

/-- A destination register took the value and IP advanced by `len`; with destination IP, IP took the value and did not
advance (R27, R97). Every other register is unchanged. -/
def WritesRegister (s t : State) (dst : Reg) (v : Word) (len : Nat) : Prop :=
  ∀ r, t.reg r = if r = dst then v else if r = .ip then s.reg .ip + BitVec.ofNat 32 len else s.reg r

/-- Only IP changed, to the given value. -/
def OnlyIp (s t : State) (v : Word) : Prop := ∀ r, t.reg r = if r = .ip then v else s.reg r

/-- PS + off as a mathematical sum (R57). -/
def ea (s : State) (off : Word) : Nat := s.inputs.programStart.toNat + off.toNat

/-- All n bytes at a exist. -/
def Exists (s : State) (a n : Nat) : Prop := a + n ≤ 2 ^ 32 ∧ a + n ≤ s.memSize

/-- The sequential advance stays below 2^32 (R96). -/
def CanAdvance (s : State) (len : Nat) : Prop := (s.reg .ip).toNat + len < 2 ^ 32

/-- The 32-bit little-endian value at a (R53). -/
def wordAt (m : Memory) (a : Nat) : Word :=
  BitVec.ofNat 32 ((m.read a).toNat + (m.read (a + 1)).toNat * 2 ^ 8 + (m.read (a + 2)).toNat * 2 ^ 16 +
    (m.read (a + 3)).toNat * 2 ^ 24)

/-- The 32-bit value at a in stack order, least significant byte at the highest address (R60). -/
def stackWordAt (m : Memory) (a : Nat) : Word :=
  BitVec.ofNat 32 ((m.read (a + 3)).toNat + (m.read (a + 2)).toNat * 2 ^ 8 + (m.read (a + 1)).toNat * 2 ^ 16 +
    (m.read a).toNat * 2 ^ 24)

/-- The n bytes at a hold the low n bytes of v, least significant first; every other byte reads as before (R54). -/
def Stores (s t : State) (a n : Nat) (v : Word) : Prop :=
  ∀ b, t.mem.read b = if a ≤ b ∧ b < a + n then v.extractLsb' (8 * (b - a)) 8 else s.mem.read b

/-- The four bytes below `top` hold v, least significant byte at top - 1; every other byte reads as before (R150). -/
def StoresStack (s t : State) (top : Nat) (v : Word) : Prop :=
  ∀ b, t.mem.read b = if top - 4 ≤ b ∧ b < top then v.extractLsb' (8 * (top - 1 - b)) 8 else s.mem.read b

/-- The words of a frame in the order they are pushed (R190). -/
def frameWord (s : State) (ret : Word) : Nat → Word
  | 0 => s.reg .r1
  | 1 => s.reg .r2
  | 2 => s.reg .r3
  | 3 => s.reg .r4
  | 4 => ret
  | _ => 24#32

/-- The 24 bytes below `top` hold the frame of R190; every other byte reads as before. -/
def StoresFrame (s t : State) (top : Nat) (ret : Word) : Prop :=
  ∀ b, t.mem.read b =
    if top - 24 ≤ b ∧ b < top then (frameWord s ret ((top - 1 - b) / 4)).extractLsb' (8 * ((top - 1 - b) % 4)) 8
    else s.mem.read b

/-- The error of an access to the n bytes at a, ascending: that of the first byte that does not exist (R53). -/
def AccessError (s : State) (a n : Nat) (e : CpuError) : Prop :=
  ∃ k, k < n ∧ (∀ j, j < k → a + j < 2 ^ 32 ∧ a + j < s.memSize) ∧
    (2 ^ 32 ≤ a + k ∧ e = .stackOverflow ∨
      a + k < 2 ^ 32 ∧ s.memSize ≤ a + k ∧ e = .invalidAddress (BitVec.ofNat 32 (a + k)))

/-- The error of a push of n bytes: StackUnderflow with SP = 0, the first byte outside memory, no room (R150, R191). -/
def PushError (s : State) (n : Nat) (e : CpuError) : Prop :=
  (s.reg .sp).toNat = 0 ∧ e = .stackUnderflow ∨
  1 ≤ (s.reg .sp).toNat ∧ s.memSize ≤ (s.reg .sp).toNat - 1 ∧
    e = .invalidAddress (BitVec.ofNat 32 ((s.reg .sp).toNat - 1)) ∨
  1 ≤ (s.reg .sp).toNat ∧ (s.reg .sp).toNat - 1 < s.memSize ∧ (s.reg .sp).toNat < n ∧ e = .stackUnderflow

/-- There is room for a push of n bytes. -/
def CanPush (s : State) (n : Nat) : Prop := n ≤ (s.reg .sp).toNat ∧ (s.reg .sp).toNat ≤ s.memSize

/-- The bytes of a 16-bit operand in an instruction (R83). -/
def le16 (v : BitVec 16) : List Byte := [v.extractLsb' 0 8, v.extractLsb' 8 8]

/-- The bytes of a 32-bit operand in an instruction (R83). -/
def le32 (v : BitVec 32) : List Byte := [v.extractLsb' 0 8, v.extractLsb' 8 8, v.extractLsb' 16 8, v.extractLsb' 24 8]

/-- The result of an instruction that writes one register and no memory, where the advance fits or the destination is
IP. -/
def RegisterResult (i : Instr) (s : State) (dst : Reg) (v : Word) (len : Nat) : Prop :=
  dst = .ip ∨ CanAdvance s len →
    Completes i s (fun t => WritesRegister s t dst v len ∧ SameControl s t ∧ SameMemory s t)

/-- The result of an instruction that stores n bytes at EA(addr). -/
def StoreResult (i : Instr) (s : State) (addr : Word) (n : Nat) (v : Word) (len : Nat) : Prop :=
  Exists s (ea s addr) n → CanAdvance s len →
    Completes i s (fun t =>
      OnlyIp s t (s.reg .ip + BitVec.ofNat 32 len) ∧ SameControl s t ∧ Stores s t (ea s addr) n v)

/-- The result of an instruction that pushes one word. -/
def PushResult (i : Instr) (s : State) (v : Word) (len : Nat) : Prop :=
  CanPush s 4 → CanAdvance s len →
    Completes i s (fun t =>
      (∀ r, t.reg r = if r = .sp then s.reg .sp - 4#32 else if r = .ip then s.reg .ip + BitVec.ofNat 32 len
        else s.reg r) ∧
      SameControl s t ∧ StoresStack s t (s.reg .sp).toNat v)

/-- The outcome of a compare (R170). -/
def outcome (a b : Nat) : Comparison := if a > b then .gt else if a < b then .lt else .eq

/-- The result of a compare: the flag and the advance, nothing else. -/
def CompareResult (i : Instr) (s : State) (a b len : Nat) : Prop :=
  CanAdvance s len →
    Completes i s (fun t =>
      t.flags = outcome a b ∧ OnlyIp s t (s.reg .ip + BitVec.ofNat 32 len) ∧ SameMemory s t ∧
        t.inInt = s.inInt ∧ t.run = s.run ∧ t.inputs = s.inputs ∧ t.memSize = s.memSize)

/-- A jump that is taken: IP becomes PS + addr, and a sum of 2^32 or more raises StackOverflow with IP unchanged
(R175). -/
def JumpTaken (i : Instr) (s : State) (addr : Word) : Prop :=
  (ea s addr < 2 ^ 32 →
    Completes i s (fun t => OnlyIp s t (s.inputs.programStart + addr) ∧ SameControl s t ∧ SameMemory s t)) ∧
  (2 ^ 32 ≤ ea s addr → Fails i s .stackOverflow (fun t => t.reg .ip = s.reg .ip))

/-- A conditional jump that is not taken: the sequential advance by 5, whatever the target (R175). -/
def JumpNotTaken (i : Instr) (s : State) : Prop :=
  CanAdvance s 5 →
    Completes i s (fun t => OnlyIp s t (s.reg .ip + 5#32) ∧ SameControl s t ∧ SameMemory s t)

/-- A conditional jump whose condition is `taken`. -/
def ConditionalResult (i : Instr) (s : State) (addr : Word) (taken : Prop) : Prop :=
  (taken → JumpTaken i s addr) ∧ (¬ taken → JumpNotTaken i s)

/-- The next state of an interrupt that saves the context (R210, R231). -/
def SavingEntry (s t : State) (idx : Nat) : Prop :=
  (∀ r, t.reg r =
    if r = .sp ∨ r = .fp then s.reg .sp - 24#32
    else if r = .ip then wordAt t.mem (s.inputs.interruptTable.toNat + 4 * idx)
    else s.reg r) ∧
  StoresFrame s t (s.reg .sp).toNat (s.reg .ip + 2#32) ∧
  t.inInt = true ∧ t.flags = s.flags ∧ t.run = s.run ∧ t.inputs = s.inputs ∧ t.memSize = s.memSize

/-- The result of an interrupt instruction with interrupt number idx, both entries of R231. -/
def InterruptResult (i : Instr) (s : State) (idx : Nat) : Prop :=
  Exists s (s.inputs.interruptTable.toNat + 4 * idx) 4 →
    (s.inInt = false → CanPush s 24 → CanAdvance s 2 → Completes i s (fun t => SavingEntry s t idx)) ∧
    (s.inInt = true →
      Completes i s (fun t =>
        OnlyIp s t (wordAt s.mem (s.inputs.interruptTable.toNat + 4 * idx)) ∧ SameControl s t ∧ SameMemory s t))

/-- The errors of an interrupt instruction in the order of R210: the room for the frame, the return address, the table
entry. -/
def InterruptErrors (i : Instr) (s : State) (idx : Nat) : Prop :=
  (s.inInt = false → ∀ e, PushError s 24 e → RaisesError i s e) ∧
  (s.inInt = false → CanPush s 24 → ¬ CanAdvance s 2 → RaisesError i s .stackOverflow) ∧
  (s.inInt = true ∨ CanPush s 24 ∧ CanAdvance s 2 →
    ∀ e, AccessError s (s.inputs.interruptTable.toNat + 4 * idx) 4 e → RaisesError i s e)

/-- The register an instruction names as its destination, if it has one. -/
def destination : Instr → Option Reg
  | .movRegReg dst _ => some dst
  | .movRegU8 dst _ => some dst
  | .movRegU16 dst _ => some dst
  | .movRegU32 dst _ => some dst
  | .movRegMem dst _ => some dst
  | .addRegReg dst _ => some dst
  | .addRegU8 dst _ => some dst
  | .addRegU16 dst _ => some dst
  | .addRegU32 dst _ => some dst
  | .addRegMem dst _ => some dst
  | .incReg reg => some reg
  | .popReg dst => some dst
  | .load dst _ => some dst
  | .movMemReg _ _ | .movMemU8 _ _ | .movMemU16 _ _ | .movMemU32 _ _ | .addMemReg _ _ | .incMem _ | .pushReg _
  | .pushMem _ | .pushU8 _ | .pushU16 _ | .pushU32 _ | .cmpReg _ _ | .cmpU8 _ _ | .cmpU16 _ _ | .cmpU32 _ _
  | .jump _ | .jumpGe _ | .jumpGte _ | .jumpLt _ | .jumpLte _ | .call _ | .storeReg _ _ | .storeU8 _ _
  | .storeU16 _ _ | .storeU32 _ _ | .interrupt _ | .interruptReg _ | .halt | .ret => none

/-- The registers an instruction writes besides IP and its destination (R23, column "writes implicitly"). -/
def implicitWrites (s : State) : Instr → List Reg
  | .pushReg _ | .pushMem _ | .pushU8 _ | .pushU16 _ | .pushU32 _ => [.sp]
  | .popReg _ => [.sp]
  | .call _ => [.sp, .fp]
  | .ret => [.sp, .fp, .r4, .r3, .r2, .r1]
  | .interrupt _ | .interruptReg _ => if s.inInt then [] else [.sp, .fp]
  | .movRegReg _ _ | .movRegU8 _ _ | .movRegU16 _ _ | .movRegU32 _ _ | .movRegMem _ _ | .movMemReg _ _ | .movMemU8 _ _
  | .movMemU16 _ _ | .movMemU32 _ _ | .addRegReg _ _ | .addRegU8 _ _ | .addRegU16 _ _ | .addRegU32 _ _
  | .addRegMem _ _ | .addMemReg _ _ | .incReg _ | .incMem _ | .cmpReg _ _ | .cmpU8 _ _ | .cmpU16 _ _ | .cmpU32 _ _
  | .jump _ | .jumpGe _ | .jumpGte _ | .jumpLt _ | .jumpLte _ | .load _ _ | .storeReg _ _ | .storeU8 _ _
  | .storeU16 _ _ | .storeU32 _ _ | .halt => []

/-- The addresses an instruction writes: first address and number of bytes (R63, column of writes). -/
def writtenBytes (s : State) : Instr → Nat × Nat
  | .movMemReg addr _ | .movMemU32 addr _ | .addMemReg addr _ | .incMem addr | .storeReg _ addr | .storeU32 addr _ =>
    (ea s addr, 4)
  | .movMemU16 addr _ | .storeU16 addr _ => (ea s addr, 2)
  | .movMemU8 addr _ | .storeU8 addr _ => (ea s addr, 1)
  | .pushReg _ | .pushMem _ | .pushU8 _ | .pushU16 _ | .pushU32 _ => ((s.reg .sp).toNat - 4, 4)
  | .call _ => ((s.reg .sp).toNat - 24, 24)
  | .interrupt _ | .interruptReg _ => ((s.reg .sp).toNat - 24, if s.inInt then 0 else 24)
  | .movRegReg _ _ | .movRegU8 _ _ | .movRegU16 _ _ | .movRegU32 _ _ | .movRegMem _ _ | .addRegReg _ _ | .addRegU8 _ _
  | .addRegU16 _ _ | .addRegU32 _ _ | .addRegMem _ _ | .incReg _ | .popReg _ | .cmpReg _ _ | .cmpU8 _ _ | .cmpU16 _ _
  | .cmpU32 _ _ | .jump _ | .jumpGe _ | .jumpGte _ | .jumpLt _ | .jumpLte _ | .load _ _ | .halt | .ret => (0, 0)

/-- The compares, the writers of the flag (R32). -/
def isCompare : Instr → Bool
  | .cmpReg _ _ | .cmpU8 _ _ | .cmpU16 _ _ | .cmpU32 _ _ => true
  | .movRegReg _ _ | .movRegU8 _ _ | .movRegU16 _ _ | .movRegU32 _ _ | .movRegMem _ _ | .movMemReg _ _ | .movMemU8 _ _
  | .movMemU16 _ _ | .movMemU32 _ _ | .addRegReg _ _ | .addRegU8 _ _ | .addRegU16 _ _ | .addRegU32 _ _
  | .addRegMem _ _ | .addMemReg _ _ | .incReg _ | .incMem _ | .pushReg _ | .pushMem _ | .pushU8 _ | .pushU16 _
  | .pushU32 _ | .popReg _ | .jump _ | .jumpGe _ | .jumpGte _ | .jumpLt _ | .jumpLte _ | .call _ | .load _ _
  | .storeReg _ _ | .storeU8 _ _ | .storeU16 _ _ | .storeU32 _ _ | .interrupt _ | .interruptReg _ | .halt | .ret => false

/-- The four bytes of a word in the opposite order (R61). -/
def byteReversed (v : Word) : Word :=
  v.extractLsb' 0 8 ++ v.extractLsb' 8 8 ++ v.extractLsb' 16 8 ++ v.extractLsb' 24 8

/-- Two register bytes are refused by name where one is bad, whichever; where both are bad, one of them is reported. -/
def EitherBadRegisterRaises (op : Opcode) : Prop :=
  (∀ (b : Byte) (r : Reg), 0x0B ≤ b.toNat → decodeWindow op [b, r.toByte] = .error (.invalidRegister b)) ∧
  (∀ (r : Reg) (c : Byte), 0x0B ≤ c.toNat → decodeWindow op [r.toByte, c] = .error (.invalidRegister c)) ∧
  (∀ b c : Byte, 0x0B ≤ b.toNat → 0x0B ≤ c.toNat →
    ∃ x, (x = b ∨ x = c) ∧ decodeWindow op [b, c] = .error (.invalidRegister x))

/-- The bytes of instruction i stand at IP, all in memory. -/
def StandsAtIp (s : State) (i : Instr) : Prop :=
  Exists s (s.reg .ip).toNat (encode i).length ∧
    ∀ k (h : k < (encode i).length), s.mem.read ((s.reg .ip).toNat + k) = (encode i)[k]

end Sys2Proof.Claims

open Sys2Proof Sys2Proof.Machine Sys2Proof.Claims

/-! ## Encoding -/

/-- R92: decode(encode(i)) = i for every instruction and every operand value, and the bytes after it are left over. -/
def Obligations.DecodeInvertsEncode : Prop :=
  ∀ (i : Instr) (rest : List Byte), decodeBytes (encode i ++ rest) = .ok (i, rest)

/-- R92: what decodes is the encoding of what it decodes to, so two different byte strings of an instruction decode to
different instructions. -/
def Obligations.DecodedBytesAreTheEncoding : Prop :=
  ∀ (bs rest : List Byte) (i : Instr), decodeBytes bs = .ok (i, rest) → bs = encode i ++ rest

/-- R92: the byte strings whose first byte is an opcode, whose length is that opcode's and whose register bytes are
valid are exactly the encodings of instructions. -/
def Obligations.WellFormedBytesAreEncodings : Prop :=
  ∀ bs : List Byte, wellFormedBytes bs = true ↔ ∃ i, encode i = bs

/-- Words written out from the encodings of the spec decode to the instructions they stand for (examples of R111,
R113, R116, R132, R153, R173, R200, R203). -/
def Obligations.ExampleWordsDecode : Prop :=
  decodeBytes [0x00, 0x04, 0x03] = .ok (.movRegReg .r2 .r1, []) ∧
  decodeBytes [0x02, 0x04, 0x34, 0x12] = .ok (.movRegU16 .r2 0x1234, []) ∧
  decodeBytes [0x05, 0x40, 0x00, 0x00, 0x00, 0x04] = .ok (.movMemReg 0x40 .r2, []) ∧
  decodeBytes [0x0A, 0x07, 0x01] = .ok (.addRegU8 .r5 1, []) ∧
  decodeBytes [0x12, 0x40, 0x00, 0x00, 0x00] = .ok (.pushMem 0x40, []) ∧
  decodeBytes [0x19, 0x00, 0x01, 0xFF, 0x00] = .ok (.cmpU16 0x0100 0x00FF, []) ∧
  decodeBytes [0x20, 0x0F, 0x00, 0x00, 0x00] = .ok (.call 15, []) ∧
  decodeBytes [0x21, 0x03, 0x0A, 0x00, 0x00, 0x00] = .ok (.load .r1 10, []) ∧
  decodeBytes [0x24, 0x40, 0x00, 0x00, 0x00, 0xCD, 0xAB] = .ok (.storeU16 0x40 0xABCD, []) ∧
  decodeBytes [0x26, 0x00] = .ok (.interrupt 0, [])

/-- R90, R91 under the numbering of R84 and R21 (the spec's decisions D1, D2): the bytes that name no opcode are 0x2A ..
0xFF, the bytes that name no register 0x0B .. 0xFF, each raising its own error with the byte. -/
def Obligations.ReservedBytesRaiseByName : Prop :=
  (∀ b : Byte, 0x2A ≤ b.toNat ↔ decodeOpcode b = .error (.invalidOpCode b)) ∧
  (∀ b : Byte, 0x0B ≤ b.toNat ↔ decodeReg b = .error (.invalidRegister b))

/-! ## The step -/

/-- R93 to R95: when the bytes at IP are those of an instruction, the step of a running engine is its execution; the
instruction's own meaning moves IP (R96). -/
def Obligations.StepRunsTheInstructionAtIp : Prop :=
  ∀ (s : State) (i : Instr), s.run = .running → StandsAtIp s i → step s = exec i s

/-- R94, R99 steps 1 to 4: the errors of a fetch in their order: the opcode byte outside memory; an unknown opcode, before
the window is looked at; the first byte of the window that does not exist; the first bad register byte, in ascending
offset order, with that byte as payload (R87, R222). With none of these the bytes at IP are an instruction of that opcode,
and the step runs it. That the lower of two bad register bytes is reported, and that nothing but the run state changes, is
decision D20. -/
def Obligations.FetchErrorsInOrder : Prop :=
  ∀ s : State, s.run = .running →
    (s.memSize ≤ (s.reg .ip).toNat → step s = .next { s with run := .faulted (.invalidAddress (s.reg .ip)) }) ∧
    ((s.reg .ip).toNat < s.memSize → 0x2A ≤ (s.mem.read (s.reg .ip).toNat).toNat →
      step s = .next { s with run := .faulted (.invalidOpCode (s.mem.read (s.reg .ip).toNat)) }) ∧
    (∀ op : Opcode, (s.reg .ip).toNat < s.memSize → s.mem.read (s.reg .ip).toNat = op.toByte →
      ∀ e, AccessError s ((s.reg .ip).toNat + 1) (op.length - 1) e → step s = .next { s with run := .faulted e }) ∧
    (∀ op : Opcode, s.mem.read (s.reg .ip).toNat = op.toByte → Exists s (s.reg .ip).toNat op.length →
      (∀ k ∈ registerOffsets op.format.operands 0,
        0x0B ≤ (s.mem.read ((s.reg .ip).toNat + 1 + k)).toNat →
        (∀ j ∈ registerOffsets op.format.operands 0, j < k → (s.mem.read ((s.reg .ip).toNat + 1 + j)).toNat < 0x0B) →
        step s =
          .next { s with run := .faulted (.invalidRegister (s.mem.read ((s.reg .ip).toNat + 1 + k))) }) ∧
      ((∀ k ∈ registerOffsets op.format.operands 0, (s.mem.read ((s.reg .ip).toNat + 1 + k)).toNat < 0x0B) →
        ∃ i, i.opcode = op ∧ StandsAtIp s i ∧ step s = exec i s))

/-- R93: a step in Halted or Faulted changes nothing (for Faulted the spec's decision D19). -/
def Obligations.StoppedEngineStays : Prop :=
  ∀ s : State, s.run ≠ .running → step s = .next s

/-- The engine always answers a next state: no fault outcome, no refusal. That a raised error is a next state, the Faulted
one, is the model's reading of R15, R36, R227 and R228 (log 5, DEDUCED), not a sentence of the spec. -/
def Obligations.EveryStepAnswersANextState : Prop := ∀ s : State, ∃ t, step s = .next t

/-! ## Invariants and frames over all instructions -/

/-- R96 (the overflow is the spec's decision D26, the unchanged state D20): an instruction whose own checks pass and that
does not set IP raises StackOverflow where the advance reaches 2^32. -/
def Obligations.AdvanceOverflowRaises : Prop :=
  ∀ s : State,
    (∀ dst, dst ≠ .ip →
      (¬ CanAdvance s 2 → RaisesError (.incReg dst) s .stackOverflow ∧
        (Exists s (s.reg .sp).toNat 4 → (s.reg .sp).toNat + 4 < 2 ^ 32 → RaisesError (.popReg dst) s .stackOverflow)) ∧
      (¬ CanAdvance s 3 → ∀ src imm, RaisesError (.movRegReg dst src) s .stackOverflow ∧
        RaisesError (.addRegReg dst src) s .stackOverflow ∧ RaisesError (.movRegU8 dst imm) s .stackOverflow ∧
        RaisesError (.addRegU8 dst imm) s .stackOverflow) ∧
      (¬ CanAdvance s 4 → ∀ imm, RaisesError (.movRegU16 dst imm) s .stackOverflow ∧
        RaisesError (.addRegU16 dst imm) s .stackOverflow) ∧
      (¬ CanAdvance s 6 → ∀ imm addr, RaisesError (.movRegU32 dst imm) s .stackOverflow ∧
        RaisesError (.addRegU32 dst imm) s .stackOverflow ∧
        (Exists s (ea s addr) 4 → RaisesError (.movRegMem dst addr) s .stackOverflow ∧
          RaisesError (.load dst addr) s .stackOverflow ∧ RaisesError (.addRegMem dst addr) s .stackOverflow))) ∧
    (∀ addr,
      (¬ CanAdvance s 5 → Exists s (ea s addr) 4 → RaisesError (.incMem addr) s .stackOverflow ∧
        (CanPush s 4 → RaisesError (.pushMem addr) s .stackOverflow)) ∧
      (¬ CanAdvance s 6 → Exists s (ea s addr) 4 → ∀ src, RaisesError (.movMemReg addr src) s .stackOverflow ∧
        RaisesError (.storeReg src addr) s .stackOverflow ∧ RaisesError (.addMemReg addr src) s .stackOverflow) ∧
      (¬ CanAdvance s 6 → Exists s (ea s addr) 1 → ∀ imm, RaisesError (.movMemU8 addr imm) s .stackOverflow ∧
        RaisesError (.storeU8 addr imm) s .stackOverflow) ∧
      (¬ CanAdvance s 7 → Exists s (ea s addr) 2 → ∀ imm, RaisesError (.movMemU16 addr imm) s .stackOverflow ∧
        RaisesError (.storeU16 addr imm) s .stackOverflow) ∧
      (¬ CanAdvance s 9 → Exists s (ea s addr) 4 → ∀ imm, RaisesError (.movMemU32 addr imm) s .stackOverflow ∧
        RaisesError (.storeU32 addr imm) s .stackOverflow)) ∧
    (CanPush s 4 →
      (¬ CanAdvance s 2 → ∀ src imm, RaisesError (.pushReg src) s .stackOverflow ∧ RaisesError (.pushU8 imm) s .stackOverflow) ∧
      (¬ CanAdvance s 3 → ∀ imm, RaisesError (.pushU16 imm) s .stackOverflow) ∧
      (¬ CanAdvance s 5 → ∀ imm, RaisesError (.pushU32 imm) s .stackOverflow)) ∧
    (¬ CanAdvance s 3 → (∀ a b, RaisesError (.cmpReg a b) s .stackOverflow) ∧ ∀ a b, RaisesError (.cmpU8 a b) s .stackOverflow) ∧
    (¬ CanAdvance s 5 → ∀ a b, RaisesError (.cmpU16 a b) s .stackOverflow) ∧
    (¬ CanAdvance s 9 → ∀ a b, RaisesError (.cmpU32 a b) s .stackOverflow) ∧
    (¬ CanAdvance s 5 → ∀ addr,
      (s.flags ≠ .gt → RaisesError (.jumpGe addr) s .stackOverflow) ∧
      (s.flags ≠ .gt → s.flags ≠ .gte → RaisesError (.jumpGte addr) s .stackOverflow) ∧
      (s.flags ≠ .lt → RaisesError (.jumpLt addr) s .stackOverflow) ∧
      (s.flags ≠ .lt → s.flags ≠ .lte → RaisesError (.jumpLte addr) s .stackOverflow))

/-- Every step keeps the invariant: MEM_SIZE in range, memory inside MEM_SIZE, the flag one of Eq, Lt, Gt (R32), the run
state never Faulted(InvalidComparison) (R226). That memory stays in canonical form is a clause about the model's own
representation of memory (log 23, DESIGN CHOICE), not a rule of the spec. -/
def Obligations.StepKeepsLegal : Prop := ∀ s t : State, s.Legal → step s = .next t → t.Legal

/-- The reset state has the invariant, and the reset event gives it from any state whose MEM_SIZE and memory are in
range, for all inputs and any FP_RESET. The values of State.reset are the model's choices (logs 1 to 4, DESIGN CHOICE), and
so is the canonical form of memory (log 23, DESIGN CHOICE). -/
def Obligations.ResetIsLegal : Prop :=
  State.reset.Legal ∧
  ∀ (inputs : ResetInputs) (fp : Word) (s : State), s.memSizeLegal → s.memLegal → (applyReset inputs fp s).Legal

/-- R41, R260: the state after reset, for all inputs, any FP_RESET and any state before. -/
def Obligations.ResetSetsEveryRegister : Prop :=
  ∀ (inputs : ResetInputs) (fp : Word) (s : State),
    (applyReset inputs fp s).reg .ip = inputs.programStart ∧
    (applyReset inputs fp s).reg .sp = inputs.stackStart ∧
    (applyReset inputs fp s).reg .fp = fp ∧
    (∀ r, r = .r1 ∨ r = .r2 ∨ r = .r3 ∨ r = .r4 ∨ r = .r5 ∨ r = .r6 ∨ r = .r7 ∨ r = .r8 →
      (applyReset inputs fp s).reg r = 0) ∧
    (applyReset inputs fp s).flags = .eq ∧ (applyReset inputs fp s).inInt = false ∧
    (applyReset inputs fp s).run = .running ∧ (applyReset inputs fp s).inputs = inputs ∧
    (applyReset inputs fp s).memSize = s.memSize ∧ ∀ a, (applyReset inputs fp s).mem.read a = s.mem.read a

/-- R33, R34 and R7: no step changes PS, STACK_START or IVT; nor MEM_SIZE. -/
def Obligations.StepKeepsInputs : Prop :=
  ∀ s t : State, step s = .next t → t.inputs = s.inputs ∧ t.memSize = s.memSize

/-- R35, R233 (the spec's decision D14): no step clears in_int, and only Interrupt and InterruptReg set it. -/
def Obligations.InterruptGuardIsSticky : Prop :=
  (∀ s t : State, step s = .next t → s.inInt = true → t.inInt = true) ∧
  (∀ (i : Instr) (s t : State), exec i s = .next t → t.inInt ≠ s.inInt →
    s.inInt = false ∧ ((∃ idx, i = .interrupt idx) ∨ ∃ r, i = .interruptReg r))

/-- R32: only the four compares write the flag, and they write Eq, Lt or Gt. -/
def Obligations.OnlyComparesWriteFlags : Prop :=
  ∀ (i : Instr) (s t : State), exec i s = .next t →
    (isCompare i = false → t.flags = s.flags) ∧
    (t.flags = s.flags ∨ t.flags = .eq ∨ t.flags = .lt ∨ t.flags = .gt)

/-- R15, R228 (the spec's decision D20): an instruction either keeps the run state, or is Halt, or raises an address error
and leaves everything but the run state as it was. -/
def Obligations.ErrorsArePrecise : Prop :=
  ∀ (i : Instr) (s t : State), exec i s = .next t →
    t.run = s.run ∨ i = .halt ∧ t = { s with run := .halted } ∨
    ∃ e, t = { s with run := .faulted e } ∧
      (e = .stackOverflow ∨ e = .stackUnderflow ∨ ∃ a, e = .invalidAddress a)

/-- R36: Halted is entered only by executing Halt, which changes nothing else (decision D19). -/
def Obligations.HaltedOnlyByHalt : Prop :=
  ∀ s t : State, s.run = .running → step s = .next t → t.run = .halted →
    s.mem.read (s.reg .ip).toNat = 0x28 ∧ t = { s with run := .halted }

/-- R23: an instruction changes no register but IP, its named destination and the registers of the table's column
"writes implicitly". -/
def Obligations.RegistersWrittenAreTheListed : Prop :=
  ∀ (i : Instr) (s t : State), exec i s = .next t →
    ∀ r, t.reg r ≠ s.reg r → r = .ip ∨ destination i = some r ∨ r ∈ implicitWrites s i

/-- R63: an instruction changes no byte of memory but those it is listed to write. -/
def Obligations.BytesWrittenAreTheListed : Prop :=
  ∀ (i : Instr) (s t : State), exec i s = .next t →
    ∀ a, ¬ ((writtenBytes s i).1 ≤ a ∧ a < (writtenBytes s i).1 + (writtenBytes s i).2) →
      t.mem.read a = s.mem.read a

/-! ## Memory and stack laws -/

/-- R53, R54: a word written with MemWrite reads back with MemRead, and every byte outside reads as before. -/
def Obligations.MemWriteThenMemRead : Prop :=
  ∀ (s : State) (a : Nat) (v : Word), Exists s a 4 →
    ∃ t, memWrite s a 4 v = .ok t ∧ memRead t a 4 = .ok v ∧ Stores s t a 4 v

/-- R158: a push followed by a pop gives the value back in any destination, IP and SP included, and leaves SP where it was
unless SP is the destination. -/
def Obligations.PushThenPopGivesBack : Prop :=
  ∀ (s t : State) (v : Word) (dst : Reg), CanPush s 4 → (s.reg .ip).toNat + 7 < 2 ^ 32 → exec (.pushU32 v) s = .next t →
    Completes (.popReg dst) t (fun u =>
      u.reg dst = v ∧ (dst ≠ .sp → u.reg .sp = s.reg .sp) ∧ ∀ a, u.mem.read a = t.mem.read a)

/-- R61 (b), (c): a pushed word read as data is byte-reversed, by MemRead and by MovRegMem alike, and a word written as
data with MemWrite at SP and then popped is byte-reversed. The first clause is the same about the two readings of any four
bytes. The stack's byte order is decision D10. -/
def Obligations.StackWordsAreByteReversedData : Prop :=
  (∀ (m : Memory) (a : Nat), stackWordAt m a = byteReversed (wordAt m a)) ∧
  (∀ (s : State) (v : Word), CanPush s 4 → CanAdvance s 5 →
    Completes (.pushU32 v) s (fun t =>
      memRead t (t.reg .sp).toNat 4 = .ok (byteReversed v) ∧
      ∀ dst addr, ea t addr = (t.reg .sp).toNat → dst = .ip ∨ CanAdvance t 6 →
        Completes (.movRegMem dst addr) t (fun u => u.reg dst = byteReversed v))) ∧
  (∀ (s : State) (w : Word) (dst : Reg), Exists s (s.reg .sp).toNat 4 → (s.reg .sp).toNat + 4 < 2 ^ 32 →
    dst = .ip ∨ CanAdvance s 2 →
    ∃ t, memWrite s (s.reg .sp).toNat 4 w = .ok t ∧
      Completes (.popReg dst) t (fun u =>
        u.reg dst = byteReversed w ∧ (dst ≠ .sp → u.reg .sp = s.reg .sp + 4#32) ∧ SameMemory t u))

/-- R194: after a Call at address c from SP = S0, whatever the callee does to R1 .. R8, SP, the flag and memory outside
the frame, a Ret from a state with FP = S0 - 24 and the 24 frame bytes intact restores R1 .. R4, goes to c + 5 and leaves
SP = FP = S0. -/
def Obligations.CallThenRetRestores : Prop :=
  ∀ (s t u : State) (addr : Word), CanPush s 24 → CanAdvance s 5 → ea s addr < 2 ^ 32 → exec (.call addr) s = .next t →
    u.memSize = s.memSize → u.reg .fp = s.reg .sp - 24#32 →
    (∀ a, (s.reg .sp).toNat - 24 ≤ a → a < (s.reg .sp).toNat → u.mem.read a = t.mem.read a) →
    Completes .ret u (fun w =>
      w.reg .r1 = s.reg .r1 ∧ w.reg .r2 = s.reg .r2 ∧ w.reg .r3 = s.reg .r3 ∧ w.reg .r4 = s.reg .r4 ∧
      w.reg .ip = s.reg .ip + 5#32 ∧ w.reg .sp = s.reg .sp ∧ w.reg .fp = s.reg .sp ∧
      (∀ r, r = .r5 ∨ r = .r6 ∨ r = .r7 ∨ r = .r8 → w.reg r = u.reg r) ∧
      SameControl u w ∧ SameMemory u w)

/-! ## Mov -/

/-- R111: MovRegReg. Which of two bad register bytes is reported is in LowerBadRegisterByteIsReported. -/
def Obligations.MovRegRegResult : Prop :=
  ∀ (dst src : Reg) (s : State),
    encode (.movRegReg dst src) = [0x00, dst.toByte, src.toByte] ∧
    RegisterResult (.movRegReg dst src) s dst (s.reg src) 3 ∧
    EitherBadRegisterRaises .movRegReg

/-- R112, R113, R114: MovRegU8, MovRegU16, MovRegU32. -/
def Obligations.MovRegImmediateResult : Prop :=
  ∀ (dst : Reg) (s : State),
    (∀ imm : BitVec 8, encode (.movRegU8 dst imm) = [0x01, dst.toByte, imm] ∧
      RegisterResult (.movRegU8 dst imm) s dst (BitVec.ofNat 32 imm.toNat) 3) ∧
    (∀ imm : BitVec 16, encode (.movRegU16 dst imm) = [0x02, dst.toByte] ++ le16 imm ∧
      RegisterResult (.movRegU16 dst imm) s dst (BitVec.ofNat 32 imm.toNat) 4) ∧
    (∀ imm : BitVec 32, encode (.movRegU32 dst imm) = [0x03, dst.toByte] ++ le32 imm ∧
      RegisterResult (.movRegU32 dst imm) s dst imm 6)

/-- R115 and R200: MovRegMem and Load read the little-endian word at PS + addr. The width (decision D7), Load's operand
form (D17) and the relocation of Load's address (D6) are the spec's own decisions. -/
def Obligations.LoadWordResult : Prop :=
  ∀ (dst : Reg) (addr : Word) (s : State),
    encode (.movRegMem dst addr) = [0x04, dst.toByte] ++ le32 addr ∧
    encode (.load dst addr) = [0x21, dst.toByte] ++ le32 addr ∧
    (Exists s (ea s addr) 4 → RegisterResult (.movRegMem dst addr) s dst (wordAt s.mem (ea s addr)) 6) ∧
    (Exists s (ea s addr) 4 → RegisterResult (.load dst addr) s dst (wordAt s.mem (ea s addr)) 6)

/-- R116 and R201: MovMemReg and StoreReg write the register little-endian at PS + addr (the width is decision D7). -/
def Obligations.StoreRegisterResult : Prop :=
  ∀ (src : Reg) (addr : Word) (s : State),
    encode (.movMemReg addr src) = [0x05] ++ le32 addr ++ [src.toByte] ∧
    encode (.storeReg src addr) = [0x22, src.toByte] ++ le32 addr ∧
    StoreResult (.movMemReg addr src) s addr 4 (s.reg src) 6 ∧
    StoreResult (.storeReg src addr) s addr 4 (s.reg src) 6

/-- R118, R119, R203, R204: MovMemU16, MovMemU32, StoreU16 and StoreU32 store the immediate with its own width and raise,
writing nothing, at the first byte outside memory. -/
def Obligations.StoreWideImmediateResult : Prop :=
  ∀ (addr : Word) (s : State),
    (∀ imm : BitVec 16,
      encode (.movMemU16 addr imm) = [0x07] ++ le32 addr ++ le16 imm ∧
      encode (.storeU16 addr imm) = [0x24] ++ le32 addr ++ le16 imm ∧
      StoreResult (.movMemU16 addr imm) s addr 2 (BitVec.ofNat 32 imm.toNat) 7 ∧
      StoreResult (.storeU16 addr imm) s addr 2 (BitVec.ofNat 32 imm.toNat) 7 ∧
      ∀ e, AccessError s (ea s addr) 2 e →
        Fails (.movMemU16 addr imm) s e (SameMemory s) ∧ Fails (.storeU16 addr imm) s e (SameMemory s)) ∧
    (∀ imm : BitVec 32,
      encode (.movMemU32 addr imm) = [0x08] ++ le32 addr ++ le32 imm ∧
      encode (.storeU32 addr imm) = [0x25] ++ le32 addr ++ le32 imm ∧
      StoreResult (.movMemU32 addr imm) s addr 4 imm 9 ∧
      StoreResult (.storeU32 addr imm) s addr 4 imm 9 ∧
      ∀ e, AccessError s (ea s addr) 4 e →
        Fails (.movMemU32 addr imm) s e (SameMemory s) ∧ Fails (.storeU32 addr imm) s e (SameMemory s))

/-- R117 and R202: MovMemU8 and StoreU8 change exactly one byte (decision D7). -/
def Obligations.StoreByteImmediateResult : Prop :=
  ∀ (addr : Word) (imm : BitVec 8) (s : State),
    encode (.movMemU8 addr imm) = [0x06] ++ le32 addr ++ [imm] ∧
    encode (.storeU8 addr imm) = [0x23] ++ le32 addr ++ [imm] ∧
    StoreResult (.movMemU8 addr imm) s addr 1 (BitVec.ofNat 32 imm.toNat) 6 ∧
    StoreResult (.storeU8 addr imm) s addr 1 (BitVec.ofNat 32 imm.toNat) 6

/-- R205: the Load and Store opcodes do what their Mov twins do. -/
def Obligations.LoadStoreEqualTheirMovTwins : Prop :=
  ∀ (r : Reg) (addr : Word) (s : State),
    exec (.load r addr) s = exec (.movRegMem r addr) s ∧
    exec (.storeReg r addr) s = exec (.movMemReg addr r) s ∧
    (∀ imm, exec (.storeU8 addr imm) s = exec (.movMemU8 addr imm) s) ∧
    (∀ imm, exec (.storeU16 addr imm) s = exec (.movMemU16 addr imm) s) ∧
    (∀ imm, exec (.storeU32 addr imm) s = exec (.movMemU32 addr imm) s)

/-- R223, R57, R228: an instruction with a data address raises at the first byte of its access that does not exist, and
changes nothing but the run state (decision D20); an address of 2^32 or more raises StackOverflow (decision D26). -/
def Obligations.DataAccessErrors : Prop :=
  ∀ (r : Reg) (addr : Word) (s : State) (e : CpuError),
    (AccessError s (ea s addr) 4 e →
      RaisesError (.movRegMem r addr) s e ∧ RaisesError (.addRegMem r addr) s e ∧ RaisesError (.load r addr) s e ∧
      RaisesError (.pushMem addr) s e ∧ RaisesError (.movMemReg addr r) s e ∧ RaisesError (.storeReg r addr) s e ∧
      RaisesError (.addMemReg addr r) s e ∧ RaisesError (.incMem addr) s e ∧
      ∀ imm, RaisesError (.movMemU32 addr imm) s e ∧ RaisesError (.storeU32 addr imm) s e) ∧
    (AccessError s (ea s addr) 2 e → ∀ imm, RaisesError (.movMemU16 addr imm) s e ∧ RaisesError (.storeU16 addr imm) s e) ∧
    (AccessError s (ea s addr) 1 e → ∀ imm, RaisesError (.movMemU8 addr imm) s e ∧ RaisesError (.storeU8 addr imm) s e)

/-! ## Add and Inc -/

/-- R131: AddRegReg, modulo 2^32. -/
def Obligations.AddRegRegResult : Prop :=
  ∀ (dst src : Reg) (s : State),
    encode (.addRegReg dst src) = [0x09, dst.toByte, src.toByte] ∧
    RegisterResult (.addRegReg dst src) s dst (BitVec.ofNat 32 (((s.reg dst).toNat + (s.reg src).toNat) % 2 ^ 32)) 3

/-- R132, R133, R134: AddRegU8, AddRegU16, AddRegU32, the immediate unsigned, modulo 2^32. -/
def Obligations.AddRegImmediateResult : Prop :=
  ∀ (dst : Reg) (s : State),
    (∀ imm : BitVec 8, encode (.addRegU8 dst imm) = [0x0A, dst.toByte, imm] ∧
      RegisterResult (.addRegU8 dst imm) s dst (BitVec.ofNat 32 (((s.reg dst).toNat + imm.toNat) % 2 ^ 32)) 3) ∧
    (∀ imm : BitVec 16, encode (.addRegU16 dst imm) = [0x0B, dst.toByte] ++ le16 imm ∧
      RegisterResult (.addRegU16 dst imm) s dst (BitVec.ofNat 32 (((s.reg dst).toNat + imm.toNat) % 2 ^ 32)) 4) ∧
    (∀ imm : BitVec 32, encode (.addRegU32 dst imm) = [0x0C, dst.toByte] ++ le32 imm ∧
      RegisterResult (.addRegU32 dst imm) s dst (BitVec.ofNat 32 (((s.reg dst).toNat + imm.toNat) % 2 ^ 32)) 6)

/-- R135: AddRegMem, with its errors. -/
def Obligations.AddRegMemResult : Prop :=
  ∀ (dst : Reg) (addr : Word) (s : State),
    encode (.addRegMem dst addr) = [0x0D, dst.toByte] ++ le32 addr ∧
    (Exists s (ea s addr) 4 →
      RegisterResult (.addRegMem dst addr) s dst
        (BitVec.ofNat 32 (((s.reg dst).toNat + (wordAt s.mem (ea s addr)).toNat) % 2 ^ 32)) 6) ∧
    (∀ e, AccessError s (ea s addr) 4 e → Fails (.addRegMem dst addr) s e (fun t => t.reg dst = s.reg dst))

/-- R136: AddMemReg, with its errors. -/
def Obligations.AddMemRegResult : Prop :=
  ∀ (addr : Word) (src : Reg) (s : State),
    encode (.addMemReg addr src) = [0x0E] ++ le32 addr ++ [src.toByte] ∧
    StoreResult (.addMemReg addr src) s addr 4
      (BitVec.ofNat 32 (((wordAt s.mem (ea s addr)).toNat + (s.reg src).toNat) % 2 ^ 32)) 6 ∧
    (∀ e, AccessError s (ea s addr) 4 e → Fails (.addMemReg addr src) s e (SameMemory s))

/-- R137: IncReg. -/
def Obligations.IncRegResult : Prop :=
  ∀ (reg : Reg) (s : State),
    encode (.incReg reg) = [0x0F, reg.toByte] ∧
    RegisterResult (.incReg reg) s reg (BitVec.ofNat 32 (((s.reg reg).toNat + 1) % 2 ^ 32)) 2

/-- R138: IncMem on a 32-bit word (the width is decision D7), with its errors. -/
def Obligations.IncMemResult : Prop :=
  ∀ (addr : Word) (s : State),
    encode (.incMem addr) = [0x10] ++ le32 addr ∧
    StoreResult (.incMem addr) s addr 4 (BitVec.ofNat 32 (((wordAt s.mem (ea s addr)).toNat + 1) % 2 ^ 32)) 5 ∧
    (∀ e, AccessError s (ea s addr) 4 e → RaisesError (.incMem addr) s e)

/-! ## Push and Pop -/

/-- R150, R152: PushReg pushes the value before the push, with its errors (byte order decision D10, no room decision D11,
the value before the push decision D21). -/
def Obligations.PushRegResult : Prop :=
  ∀ (src : Reg) (s : State),
    encode (.pushReg src) = [0x11, src.toByte] ∧ PushResult (.pushReg src) s (s.reg src) 2 ∧
    (∀ e, PushError s 4 e → RaisesError (.pushReg src) s e)

/-- R150, R154, R155, R156: PushU8, PushU16, PushU32 push one zero-extended word, with their errors (decisions D10, D11,
D27). -/
def Obligations.PushImmediateResult : Prop :=
  ∀ s : State,
    (∀ imm : BitVec 8, encode (.pushU8 imm) = [0x13, imm] ∧ PushResult (.pushU8 imm) s (BitVec.ofNat 32 imm.toNat) 2 ∧
      ∀ e, PushError s 4 e → RaisesError (.pushU8 imm) s e) ∧
    (∀ imm : BitVec 16, encode (.pushU16 imm) = [0x14] ++ le16 imm ∧
      PushResult (.pushU16 imm) s (BitVec.ofNat 32 imm.toNat) 3 ∧ ∀ e, PushError s 4 e → RaisesError (.pushU16 imm) s e) ∧
    (∀ imm : BitVec 32, encode (.pushU32 imm) = [0x15] ++ le32 imm ∧ PushResult (.pushU32 imm) s imm 5 ∧
      ∀ e, PushError s 4 e → RaisesError (.pushU32 imm) s e)

/-- R153: PushMem reads the word before it pushes (the width is decision D7, the byte orders D10, the order of reading and
pushing D21); the read's error comes before the push's. -/
def Obligations.PushMemResult : Prop :=
  ∀ (addr : Word) (s : State),
    encode (.pushMem addr) = [0x12] ++ le32 addr ∧
    (Exists s (ea s addr) 4 → PushResult (.pushMem addr) s (wordAt s.mem (ea s addr)) 5) ∧
    (∀ e, AccessError s (ea s addr) 4 e → RaisesError (.pushMem addr) s e) ∧
    (∀ e, Exists s (ea s addr) 4 → PushError s 4 e → RaisesError (.pushMem addr) s e)

/-- R157, R151: PopReg, the destination written after SP has advanced (decision D21; byte order D10, destination IP D18,
SP + 4 D11). -/
def Obligations.PopRegResult : Prop :=
  ∀ (dst : Reg) (s : State),
    encode (.popReg dst) = [0x16, dst.toByte] ∧
    (Exists s (s.reg .sp).toNat 4 → (s.reg .sp).toNat + 4 < 2 ^ 32 →
      dst = .ip ∨ CanAdvance s 2 →
      Completes (.popReg dst) s (fun t =>
        (∀ r, t.reg r = if r = dst then stackWordAt s.mem (s.reg .sp).toNat else if r = .sp then s.reg .sp + 4#32
          else if r = .ip then s.reg .ip + 2#32 else s.reg r) ∧
        SameControl s t ∧ SameMemory s t)) ∧
    (∀ e, AccessError s (s.reg .sp).toNat 4 e → RaisesError (.popReg dst) s e) ∧
    (Exists s (s.reg .sp).toNat 4 → 2 ^ 32 ≤ (s.reg .sp).toNat + 4 → RaisesError (.popReg dst) s .stackOverflow)

/-! ## Compare and jump -/

/-- R171: CmpReg. Which of two bad register bytes is reported is in LowerBadRegisterByteIsReported. -/
def Obligations.CmpRegResult : Prop :=
  ∀ (a b : Reg) (s : State),
    encode (.cmpReg a b) = [0x17, a.toByte, b.toByte] ∧
    CompareResult (.cmpReg a b) s (s.reg a).toNat (s.reg b).toNat 3 ∧
    EitherBadRegisterRaises .cmpReg

/-- R172, R173, R174: CmpU8, CmpU16, CmpU32. -/
def Obligations.CmpImmediateResult : Prop :=
  ∀ s : State,
    (∀ a b : BitVec 8, encode (.cmpU8 a b) = [0x18, a, b] ∧ CompareResult (.cmpU8 a b) s a.toNat b.toNat 3) ∧
    (∀ a b : BitVec 16, encode (.cmpU16 a b) = [0x19] ++ le16 a ++ le16 b ∧
      CompareResult (.cmpU16 a b) s a.toNat b.toNat 5) ∧
    (∀ a b : BitVec 32, encode (.cmpU32 a b) = [0x1A] ++ le32 a ++ le32 b ∧
      CompareResult (.cmpU32 a b) s a.toNat b.toNat 9)

/-- R176: Jump. -/
def Obligations.JumpResult : Prop :=
  ∀ (addr : Word) (s : State), encode (.jump addr) = [0x1B] ++ le32 addr ∧ JumpTaken (.jump addr) s addr

/-- R177 to R180: the conditional jumps, each with the condition of its rule. -/
def Obligations.ConditionalJumpResults : Prop :=
  ∀ (addr : Word) (s : State),
    encode (.jumpGe addr) = [0x1C] ++ le32 addr ∧ encode (.jumpGte addr) = [0x1D] ++ le32 addr ∧
    encode (.jumpLt addr) = [0x1E] ++ le32 addr ∧ encode (.jumpLte addr) = [0x1F] ++ le32 addr ∧
    ConditionalResult (.jumpGe addr) s addr (s.flags = .gt) ∧
    ConditionalResult (.jumpGte addr) s addr (s.flags = .gt ∨ s.flags = .gte) ∧
    ConditionalResult (.jumpLt addr) s addr (s.flags = .lt) ∧
    ConditionalResult (.jumpLte addr) s addr (s.flags = .lt ∨ s.flags = .lte)

/-- R181's consequence: with a flag a compare can leave, JumpGte acts as JumpGe and JumpLte as JumpLt, and after Eq none of
the four is taken. -/
def Obligations.JumpPairsAgreeOnReachableFlags : Prop :=
  ∀ (addr : Word) (s : State), s.flagsLegal →
    exec (.jumpGte addr) s = exec (.jumpGe addr) s ∧ exec (.jumpLte addr) s = exec (.jumpLt addr) s ∧
    (s.flags = .eq → JumpNotTaken (.jumpGe addr) s ∧ JumpNotTaken (.jumpGte addr) s ∧ JumpNotTaken (.jumpLt addr) s ∧
      JumpNotTaken (.jumpLte addr) s)

/-! ## Call and Ret -/

/-- R190, R191 (decisions D12, D13): Call pushes the six-word frame, sets FP to the new SP and goes to PS + addr. -/
def Obligations.CallResult : Prop :=
  ∀ (addr : Word) (s : State),
    encode (.call addr) = [0x20] ++ le32 addr ∧
    (CanPush s 24 → CanAdvance s 5 → ea s addr < 2 ^ 32 →
      Completes (.call addr) s (fun t =>
        (∀ r, t.reg r =
          if r = .sp ∨ r = .fp then s.reg .sp - 24#32 else if r = .ip then s.inputs.programStart + addr else s.reg r) ∧
        SameControl s t ∧ StoresFrame s t (s.reg .sp).toNat (s.reg .ip + 5#32)))

/-- R191: the errors of Call in their order: the stack, the return address, the target (decisions D11, D20). -/
def Obligations.CallErrorsInOrder : Prop :=
  ∀ (addr : Word) (s : State),
    (∀ e, PushError s 24 e → RaisesError (.call addr) s e) ∧
    (CanPush s 24 → ¬ CanAdvance s 5 → RaisesError (.call addr) s .stackOverflow) ∧
    (CanPush s 24 → CanAdvance s 5 → 2 ^ 32 ≤ ea s addr → RaisesError (.call addr) s .stackOverflow)

/-- R192: Ret takes everything from the six words at FP (their order is decision D13, their byte order D10) and adds the
frame-size word it pops to FP; in_int stays as it is (decision D14). -/
def Obligations.RetResult : Prop :=
  ∀ s : State,
    encode .ret = [0x29] ∧
    (Exists s (s.reg .fp).toNat 24 → (s.reg .fp).toNat + 24 < 2 ^ 32 →
      (s.reg .fp).toNat + (stackWordAt s.mem (s.reg .fp).toNat).toNat < 2 ^ 32 →
      Completes .ret s (fun t =>
        (t.reg .sp = s.reg .fp + 24#32 ∧ t.reg .fp = s.reg .fp + stackWordAt s.mem (s.reg .fp).toNat ∧
          t.reg .ip = stackWordAt s.mem ((s.reg .fp).toNat + 4) ∧
          t.reg .r4 = stackWordAt s.mem ((s.reg .fp).toNat + 8) ∧
          t.reg .r3 = stackWordAt s.mem ((s.reg .fp).toNat + 12) ∧
          t.reg .r2 = stackWordAt s.mem ((s.reg .fp).toNat + 16) ∧
          t.reg .r1 = stackWordAt s.mem ((s.reg .fp).toNat + 20) ∧
          ∀ r, r = .r5 ∨ r = .r6 ∨ r = .r7 ∨ r = .r8 → t.reg r = s.reg r) ∧
        SameControl s t ∧ SameMemory s t))

/-- R192: the errors of Ret in their order: the 24 bytes, SP after the pops, the new FP (decisions D11, D20). -/
def Obligations.RetErrorsInOrder : Prop :=
  ∀ s : State,
    (∀ e, AccessError s (s.reg .fp).toNat 24 e → RaisesError .ret s e) ∧
    (Exists s (s.reg .fp).toNat 24 → 2 ^ 32 ≤ (s.reg .fp).toNat + 24 → RaisesError .ret s .stackOverflow) ∧
    (Exists s (s.reg .fp).toNat 24 → (s.reg .fp).toNat + 24 < 2 ^ 32 →
      2 ^ 32 ≤ (s.reg .fp).toNat + (stackWordAt s.mem (s.reg .fp).toNat).toNat → RaisesError .ret s .stackOverflow)

/-! ## Interrupts and Halt -/

/-- R210, R211: Interrupt (its one-byte index is decision D16, the stride 4 D15, that the entry sets FP D14): a saving entry
while in_int is false, a bare transfer while it is true. -/
def Obligations.InterruptResultBothEntries : Prop :=
  ∀ (idx : BitVec 8) (s : State), encode (.interrupt idx) = [0x26, idx] ∧ InterruptResult (.interrupt idx) s idx.toNat

/-- R210, R212: InterruptReg, its index the register's value before anything is pushed (decision D21). -/
def Obligations.InterruptRegResultBothEntries : Prop :=
  ∀ (reg : Reg) (s : State),
    encode (.interruptReg reg) = [0x27, reg.toByte] ∧ InterruptResult (.interruptReg reg) s (s.reg reg).toNat

/-- R210: the errors of both interrupt instructions in their order; while in_int is true the stack is not checked
(decisions D11, D20). -/
def Obligations.InterruptErrorsInOrder : Prop :=
  ∀ s : State,
    (∀ idx : BitVec 8, InterruptErrors (.interrupt idx) s idx.toNat) ∧
    (∀ reg : Reg, InterruptErrors (.interruptReg reg) s (s.reg reg).toNat)

/-- R213: Halt changes the run state and nothing else (that IP is unchanged is decision D19), and every later step changes
nothing. -/
def Obligations.HaltResult : Prop :=
  ∀ s : State,
    encode .halt = [0x28] ∧
    Completes .halt s (fun t =>
      t.run = .halted ∧ (∀ r, t.reg r = s.reg r) ∧ t.flags = s.flags ∧ t.inInt = s.inInt ∧ t.inputs = s.inputs ∧
        t.memSize = s.memSize ∧ SameMemory s t ∧ step t = .next t)

/-- R233's consequence (decision D14): once an interrupt has been taken, no later interrupt writes a byte of memory or
moves SP or FP. -/
def Obligations.LaterInterruptsSaveNothing : Prop :=
  ∀ (s t : State) (i : Instr), ((∃ idx, i = .interrupt idx) ∨ ∃ r, i = .interruptReg r) → s.inInt = true →
    exec i s = .next t → (∀ r, r ≠ .ip → t.reg r = s.reg r) ∧ SameMemory s t ∧ t.inInt = true

/-- R70: fetch sees stores at once. StoreU8 of any byte b to the byte right after itself completes, and the next step fetches
b: it runs the instruction whose encoding begins with b and goes on with the bytes that stood after it; 0x28 halts, 0x29 is
a Ret, and 0x2A and above raise InvalidOpCode(b). -/
def Obligations.FetchSeesStores : Prop :=
  ∀ (s : State) (addr : Word) (b : Byte), s.run = .running → Exists s (ea s addr) 1 → CanAdvance s 6 →
    (s.reg .ip).toNat + 6 = ea s addr →
    Completes (.storeU8 addr b) s (fun t =>
      (∀ (i : Instr) (rest : List Byte), encode i = b :: rest → Exists s (ea s addr + 1) rest.length →
        (∀ k (h : k < rest.length), s.mem.read (ea s addr + 1 + k) = rest[k]) → step t = exec i t) ∧
      (b = 0x28 → step t = .next { t with run := .halted }) ∧
      (b = 0x29 → step t = exec .ret t) ∧
      (0x2A ≤ b.toNat → step t = .next { t with run := .faulted (.invalidOpCode b) }))

/-- R87 (the spec's decision D20): in an instruction with two register bytes the one at the lower offset is checked first,
so a bad first byte is reported whatever the second is. -/
def Obligations.LowerBadRegisterByteIsReported : Prop :=
  ∀ b c : Byte, 0x0B ≤ b.toNat →
    decodeWindow .movRegReg [b, c] = .error (.invalidRegister b) ∧
    decodeWindow .addRegReg [b, c] = .error (.invalidRegister b) ∧
    decodeWindow .cmpReg [b, c] = .error (.invalidRegister b)
end

