-- ==== Sys2Proof/Laws/Encoding.lean ====
section
/-!
SUPPORT. The small lemmas of the encoding: byte numberings and their inverses, operand bytes and their values.
-/

namespace Sys2Proof

/-! ## The numberings are one-to-one -/

@[simp] theorem Reg.ofByte_toByte (r : Reg) : Reg.ofByte r.toByte = some r := by
  cases r <;> rfl

theorem Reg.toByte_of_ofByte {b : Byte} {r : Reg} (h : Reg.ofByte b = some r) : r.toByte = b := by
  simpa using List.find?_some h

@[simp] theorem Opcode.ofByte_toByte (op : Opcode) : Opcode.ofByte op.toByte = some op := by
  cases op <;> rfl

theorem Opcode.toByte_of_ofByte {b : Byte} {op : Opcode} (h : Opcode.ofByte b = some op) : op.toByte = b := by
  simpa using List.find?_some h

@[simp] theorem decodeReg_toByte (r : Reg) : decodeReg r.toByte = .ok r := by
  simp [decodeReg]

@[simp] theorem decodeOpcode_toByte (op : Opcode) : decodeOpcode op.toByte = .ok op := by
  simp [decodeOpcode]

/-- A register operand decodes to the register whose byte it is (R87). -/
theorem decodeReg_eq_ok {b : Byte} {r : Reg} : decodeReg b = .ok r ↔ b = r.toByte := by
  constructor
  · intro h
    unfold decodeReg at h
    split at h
    · next r' hr =>
      cases h
      exact (Reg.toByte_of_ofByte hr).symm
    · cases h
  · rintro rfl
    exact decodeReg_toByte r

/-- An opcode byte decodes to the opcode whose byte it is (R84). -/
theorem decodeOpcode_eq_ok {b : Byte} {op : Opcode} : decodeOpcode b = .ok op ↔ b = op.toByte := by
  constructor
  · intro h
    unfold decodeOpcode at h
    split at h
    · next op' hr =>
      cases h
      exact (Opcode.toByte_of_ofByte hr).symm
    · cases h
  · rintro rfl
    exact decodeOpcode_toByte op

/-- No instruction is longer than 9 bytes (R80). -/
theorem Opcode.length_le (op : Opcode) : op.length ≤ maxInstrLength := by
  cases op <;> decide

/-- Every instruction has an opcode byte (R80). -/
theorem Opcode.length_pos (op : Opcode) : 1 ≤ op.length := Nat.le_add_right 1 _

/-! ## Operand bytes and their values -/

/-- A byte of a word as a number (R11). -/
theorem toNat_byteOf (w : Nat) (v : BitVec w) (k : Nat) : (byteOf w v k).toNat = v.toNat / 2 ^ (8 * k) % 256 := by
  simp [byteOf, BitVec.extractLsb'_toNat, Nat.shiftRight_eq_div_pow]

/-- The four bytes of a word, weighted, are the word. -/
theorem sum_bytes (v : Word) :
    (byteOf 32 v 0).toNat + (byteOf 32 v 1).toNat * 2 ^ 8 + (byteOf 32 v 2).toNat * 2 ^ 16 +
      (byteOf 32 v 3).toNat * 2 ^ 24 = v.toNat := by
  have h := v.isLt
  simp only [toNat_byteOf]
  omega

/-- Four bytes of a word give the word back (R88). -/
@[simp] theorem word32_bytes (v : BitVec 32) :
    word32 (byteOf 32 v 0) (byteOf 32 v 1) (byteOf 32 v 2) (byteOf 32 v 3) = v := by
  rw [word32, sum_bytes, BitVec.ofNat_toNat, BitVec.setWidth_eq]

/-- Two bytes of a half word give it back (R89). -/
@[simp] theorem word16_bytes (v : BitVec 16) : word16 (byteOf 16 v 0) (byteOf 16 v 1) = v := by
  have h := v.isLt
  have hsum : (byteOf 16 v 0).toNat + (byteOf 16 v 1).toNat * 2 ^ 8 = v.toNat := by
    simp only [toNat_byteOf]
    omega
  rw [word16, hsum, BitVec.ofNat_toNat, BitVec.setWidth_eq]

/-- A byte is determined by its number. -/
theorem byteOf_eq {w : Nat} {v : BitVec w} {k : Nat} {b : Byte} (h : v.toNat / 2 ^ (8 * k) % 256 = b.toNat) :
    byteOf w v k = b := by
  apply BitVec.eq_of_toNat_eq
  rw [toNat_byteOf, h]

/-- The number of four bytes, which fits in a word (R88). -/
theorem toNat_word32 (b0 b1 b2 b3 : Byte) :
    (word32 b0 b1 b2 b3).toNat = b0.toNat + b1.toNat * 2 ^ 8 + b2.toNat * 2 ^ 16 + b3.toNat * 2 ^ 24 := by
  have h0 := b0.isLt
  have h1 := b1.isLt
  have h2 := b2.isLt
  have h3 := b3.isLt
  rw [word32, BitVec.toNat_ofNat, Nat.mod_eq_of_lt (by omega)]

/-- The number of two bytes, which fits in a half word (R89). -/
theorem toNat_word16 (b0 b1 : Byte) : (word16 b0 b1).toNat = b0.toNat + b1.toNat * 2 ^ 8 := by
  have h0 := b0.isLt
  have h1 := b1.isLt
  rw [word16, BitVec.toNat_ofNat, Nat.mod_eq_of_lt (by omega)]

/-- A word of four bytes has those bytes (R88). -/
@[simp] theorem bytes32_word32 (b0 b1 b2 b3 : Byte) : bytes32 (word32 b0 b1 b2 b3) = [b0, b1, b2, b3] := by
  have h0 := b0.isLt
  have h1 := b1.isLt
  have h2 := b2.isLt
  have h3 := b3.isLt
  rw [bytes32, byteOf_eq (b := b0), byteOf_eq (b := b1), byteOf_eq (b := b2), byteOf_eq (b := b3)] <;>
    rw [toNat_word32] <;> omega

/-- A half word of two bytes has those bytes (R89). -/
@[simp] theorem bytes16_word16 (b0 b1 : Byte) : bytes16 (word16 b0 b1) = [b0, b1] := by
  have h0 := b0.isLt
  have h1 := b1.isLt
  rw [bytes16, byteOf_eq (b := b0), byteOf_eq (b := b1)] <;> rw [toNat_word16] <;> omega

end Sys2Proof
end

