-- ==== Sys2Proof/Laws/State.lean ====
section
/-!
SUPPORT. One lemma per field per update of the state, so that no proof unfolds a record update.
-/

namespace Sys2Proof.Machine

/-! ## Register reads after updates of other fields -/

@[simp] theorem State.reg_with_mem (s : State) (m : Memory) (r : Reg) : { s with mem := m }.reg r = s.reg r := (rfl)
@[simp] theorem State.reg_with_flags (s : State) (c : Comparison) (r : Reg) : { s with flags := c }.reg r = s.reg r := (rfl)
@[simp] theorem State.reg_with_inInt (s : State) (b : Bool) (r : Reg) : { s with inInt := b }.reg r = s.reg r := (rfl)
@[simp] theorem State.reg_with_run (s : State) (u : RunState) (r : Reg) : { s with run := u }.reg r = s.reg r := (rfl)

/-! ## Writing a register -/

/-- Reading a register after a register write: the written value at the written name, the old one elsewhere. -/
theorem State.reg_setReg (s : State) (r : Reg) (v : Word) (r' : Reg) :
    (s.setReg r v).reg r' = if r' = r then v else s.reg r' := by
  cases r <;> cases r' <;> rfl

@[simp] theorem State.reg_setReg_self (s : State) (r : Reg) (v : Word) : (s.setReg r v).reg r = v := by
  simp [State.reg_setReg]

theorem State.reg_setReg_ne (s : State) (v : Word) {r r' : Reg} (h : r' ≠ r) : (s.setReg r v).reg r' = s.reg r' := by
  simp [State.reg_setReg, h]

@[simp] theorem State.setReg_flags (s : State) (r : Reg) (v : Word) : (s.setReg r v).flags = s.flags := (rfl)
@[simp] theorem State.setReg_inInt (s : State) (r : Reg) (v : Word) : (s.setReg r v).inInt = s.inInt := (rfl)
@[simp] theorem State.setReg_run (s : State) (r : Reg) (v : Word) : (s.setReg r v).run = s.run := (rfl)
@[simp] theorem State.setReg_inputs (s : State) (r : Reg) (v : Word) : (s.setReg r v).inputs = s.inputs := (rfl)
@[simp] theorem State.setReg_memSize (s : State) (r : Reg) (v : Word) : (s.setReg r v).memSize = s.memSize := (rfl)
@[simp] theorem State.setReg_mem (s : State) (r : Reg) (v : Word) : (s.setReg r v).mem = s.mem := (rfl)

/-- Register files that read alike are equal. -/
theorem State.regs_ext {s t : State} (h : ∀ r, s.reg r = t.reg r) : s.regs = t.regs := by
  have hip := h .ip
  have hsp := h .sp
  have hfp := h .fp
  have h1 := h .r1
  have h2 := h .r2
  have h3 := h .r3
  have h4 := h .r4
  have h5 := h .r5
  have h6 := h .r6
  have h7 := h .r7
  have h8 := h .r8
  cases hs : s.regs
  cases ht : t.regs
  simp_all [State.reg]

/-! ## Raising an error -/

@[simp] theorem State.raise_reg (s : State) (e : CpuError) (r : Reg) : (s.raise e).reg r = s.reg r := (rfl)
@[simp] theorem State.raise_flags (s : State) (e : CpuError) : (s.raise e).flags = s.flags := (rfl)
@[simp] theorem State.raise_inInt (s : State) (e : CpuError) : (s.raise e).inInt = s.inInt := (rfl)
@[simp] theorem State.raise_run (s : State) (e : CpuError) : (s.raise e).run = .faulted e := (rfl)
@[simp] theorem State.raise_inputs (s : State) (e : CpuError) : (s.raise e).inputs = s.inputs := (rfl)
@[simp] theorem State.raise_memSize (s : State) (e : CpuError) : (s.raise e).memSize = s.memSize := (rfl)
@[simp] theorem State.raise_mem (s : State) (e : CpuError) : (s.raise e).mem = s.mem := (rfl)

/-! ## Reset -/

@[simp] theorem applyReset_flags (i : ResetInputs) (f : Word) (s : State) : (applyReset i f s).flags = .eq := (rfl)
@[simp] theorem applyReset_inInt (i : ResetInputs) (f : Word) (s : State) : (applyReset i f s).inInt = false := (rfl)
@[simp] theorem applyReset_run (i : ResetInputs) (f : Word) (s : State) : (applyReset i f s).run = .running := (rfl)
@[simp] theorem applyReset_inputs (i : ResetInputs) (f : Word) (s : State) : (applyReset i f s).inputs = i := (rfl)
@[simp] theorem applyReset_memSize (i : ResetInputs) (f : Word) (s : State) : (applyReset i f s).memSize = s.memSize := (rfl)
@[simp] theorem applyReset_mem (i : ResetInputs) (f : Word) (s : State) : (applyReset i f s).mem = s.mem := (rfl)
@[simp] theorem applyReset_ip (i : ResetInputs) (f : Word) (s : State) :
    (applyReset i f s).reg .ip = i.programStart := (rfl)
@[simp] theorem applyReset_sp (i : ResetInputs) (f : Word) (s : State) : (applyReset i f s).reg .sp = i.stackStart := (rfl)
@[simp] theorem applyReset_fp (i : ResetInputs) (f : Word) (s : State) : (applyReset i f s).reg .fp = f := (rfl)

/-- The reset state is the reset event applied with Config's values to any state of Config's size with nothing
listed. -/
theorem reset_eq_applyReset (s : State) (hsize : s.memSize = Config.memSize) (hmem : s.mem = []) :
    State.reset = applyReset Config.resetInputs Config.fpReset s := by
  simp [State.reset, applyReset, hsize, hmem]

end Sys2Proof.Machine
end

