-- ==== Sys2Proof/Laws/Memory.lean ====
section
/-!
SUPPORT. Memory: read after write, the canonical form, and what little-endian and stack-order stores leave.
-/

namespace Sys2Proof.Machine

/-! ## One byte -/

theorem Memory.read_insert (m : Memory) (a : Nat) (b : Byte) (a' : Nat) :
    (m.insert a b).read a' = if a' = a then b else m.read a' := by
  induction m with
  | nil => simp [Memory.insert, Memory.read, eq_comm]
  | cons c rest ih =>
    obtain ⟨k, c⟩ := c
    simp only [Memory.insert]
    split
    · simp [Memory.read]
    · split
      · subst_vars
        simp only [Memory.read]
        split <;> simp_all
      · next hne =>
        simp only [Memory.read, ih]
        by_cases h1 : a' = k
        · subst h1
          simp [Ne.symm hne]
        · simp [h1]

theorem Memory.read_filter_ne (m : Memory) (a a' : Nat) :
    Memory.read (m.filter (fun c => c.1 != a)) a' = if a' = a then Config.unlistedByte else m.read a' := by
  induction m with
  | nil => simp [Memory.read]
  | cons c rest ih =>
    obtain ⟨k, c⟩ := c
    by_cases hk : k = a
    · subst hk
      simp only [List.filter_cons, bne_self_eq_false, Bool.false_eq_true, if_false, ih, Memory.read]
      split <;> simp_all
    · have hb : (k != a) = true := by simpa using hk
      simp only [List.filter_cons, hb, if_true, Memory.read, ih]
      by_cases h1 : a' = k
      · subst h1
        simp [hk]
      · simp [h1]

/-- Reading a byte after a write: the written byte at the written address, the old one elsewhere (R52). -/
theorem Memory.read_write (m : Memory) (a : Nat) (b : Byte) (a' : Nat) :
    (m.write a b).read a' = if a' = a then b else m.read a' := by
  unfold Memory.write
  split
  · next h => rw [Memory.read_filter_ne, h]
  · exact Memory.read_insert m a b a'

@[simp] theorem Memory.read_write_self (m : Memory) (a : Nat) (b : Byte) : (m.write a b).read a = b := by
  simp [Memory.read_write]

theorem Memory.read_write_ne (m : Memory) (b : Byte) {a a' : Nat} (h : a' ≠ a) : (m.write a b).read a' = m.read a' := by
  simp [Memory.read_write, h]

/-! ## The canonical form -/

/-- What an insertion can hold: the new entry and old ones. -/
theorem Memory.mem_insert {m : Memory} {a : Nat} {b : Byte} {c : Host.Cell} (h : c ∈ m.insert a b) :
    c = (a, b) ∨ c ∈ m := by
  induction m with
  | nil => simpa [Memory.insert] using h
  | cons d rest ih =>
    obtain ⟨k, d⟩ := d
    simp only [Memory.insert] at h
    split at h
    · simpa [List.mem_cons] using h
    · split at h
      · simp only [List.mem_cons] at h ⊢
        tauto
      · simp only [List.mem_cons] at h ⊢
        rcases h with h | h
        · tauto
        · rcases ih h with h | h <;> tauto

theorem Memory.sorted_insert {m : Memory} (a : Nat) (b : Byte) (h : m.Pairwise (fun c d => c.1 < d.1)) :
    (m.insert a b).Pairwise (fun c d => c.1 < d.1) := by
  induction m with
  | nil => simp [Memory.insert]
  | cons d rest ih =>
    obtain ⟨k, d⟩ := d
    rw [List.pairwise_cons] at h
    simp only [Memory.insert]
    split
    · next hlt =>
      refine List.pairwise_cons.2 ⟨fun c hc => ?_, List.pairwise_cons.2 h⟩
      rcases List.mem_cons.1 hc with rfl | hc
      · exact hlt
      · exact Nat.lt_trans hlt (h.1 c hc)
    · split
      · next heq =>
        subst heq
        exact List.pairwise_cons.2 h
      · next hnlt hne =>
        refine List.pairwise_cons.2 ⟨fun c hc => ?_, ih h.2⟩
        rcases Memory.mem_insert hc with rfl | hc
        · show k < a
          omega
        · exact h.1 c hc

/-- What a write can hold: the new entry and old ones. -/
theorem Memory.mem_write {m : Memory} {a : Nat} {b : Byte} {c : Host.Cell} (h : c ∈ m.write a b) :
    c = (a, b) ∨ c ∈ m := by
  unfold Memory.write at h
  split at h
  · exact .inr (List.mem_filter.1 h).1
  · exact Memory.mem_insert h

/-- A write keeps the canonical form. -/
theorem Memory.wf_write {m : Memory} (h : m.wf) (a : Nat) (b : Byte) : (m.write a b).wf := by
  unfold Memory.write
  split
  · exact ⟨h.1.filter _, fun c hc => h.2 c (List.mem_filter.1 hc).1⟩
  · next hb =>
    refine ⟨Memory.sorted_insert a b h.1, fun c hc => ?_⟩
    rcases Memory.mem_insert hc with rfl | hc
    · exact hb
    · exact h.2 c hc

/-- A write inside memory keeps every listed address inside memory. -/
theorem Memory.bound_write {m : Memory} {n : Nat} (h : ∀ c ∈ m, c.1 < n) {a : Nat} (ha : a < n) (b : Byte) :
    ∀ c ∈ m.write a b, c.1 < n := by
  intro c hc
  rcases Memory.mem_write hc with rfl | hc
  · exact ha
  · exact h c hc

/-- An address below every listed one reads as unlisted. -/
theorem Memory.read_below {m : Memory} {a : Nat} (h : ∀ c ∈ m, a < c.1) : m.read a = Config.unlistedByte := by
  induction m with
  | nil => rfl
  | cons d rest ih =>
    have hd := h d (by simp)
    have : a ≠ d.1 := by omega
    simp only [Memory.read, if_neg this]
    exact ih (fun c hc => h c (List.mem_cons_of_mem d hc))

/-- Equal memories are equal lists: two canonical memories that read alike are the same list. -/
theorem Memory.ext_of_read {m m' : Memory} (h : m.wf) (h' : m'.wf) (heq : ∀ a, m.read a = m'.read a) : m = m' := by
  induction m generalizing m' with
  | nil =>
    cases m' with
    | nil => rfl
    | cons d rest =>
      have := heq d.1
      simp [Memory.read] at this
      exact absurd this.symm (h'.2 d (by simp))
  | cons c rest ih =>
    cases m' with
    | nil =>
      have := heq c.1
      simp [Memory.read] at this
      exact absurd this (h.2 c (by simp))
    | cons d rest' =>
      obtain ⟨k, b⟩ := c
      obtain ⟨k', b'⟩ := d
      have hs := List.pairwise_cons.1 h.1
      have hs' := List.pairwise_cons.1 h'.1
      have hk : k = k' := by
        rcases Nat.lt_trichotomy k k' with hlt | heq' | hgt
        · have h1 := heq k
          rw [Memory.read_below (m := (k', b') :: rest')] at h1
          · simp [Memory.read] at h1
            exact absurd h1 (h.2 (k, b) (by simp))
          · intro c hc
            rcases List.mem_cons.1 hc with rfl | hc
            · exact hlt
            · exact Nat.lt_trans hlt (hs'.1 c hc)
        · exact heq'
        · have h1 := heq k'
          rw [Memory.read_below (m := (k, b) :: rest)] at h1
          · simp [Memory.read] at h1
            exact absurd h1.symm (h'.2 (k', b') (by simp))
          · intro c hc
            rcases List.mem_cons.1 hc with rfl | hc
            · exact hgt
            · exact Nat.lt_trans hgt (hs.1 c hc)
      subst hk
      have hb : b = b' := by simpa [Memory.read] using heq k
      subst hb
      have hrest : rest = rest' := by
        refine ih ⟨hs.2, fun c hc => h.2 c (List.mem_cons_of_mem _ hc)⟩
          ⟨hs'.2, fun c hc => h'.2 c (List.mem_cons_of_mem _ hc)⟩ (fun a => ?_)
        by_cases ha : a = k
        · subst ha
          rw [Memory.read_below hs.1, Memory.read_below hs'.1]
        · simpa [Memory.read, ha] using heq a
      rw [hrest]

/-! ## Little-endian stores and values (R53, R54) -/

/-- Reading a byte after an n-byte little-endian store. -/
theorem Memory.read_storeLE (m : Memory) (a : Nat) (v : Word) (n b : Nat) :
    (m.storeLE a v n).read b = if a ≤ b ∧ b < a + n then byteOf 32 v (b - a) else m.read b := by
  induction n with
  | zero =>
    have : ¬ (a ≤ b ∧ b < a + 0) := by omega
    simp only [Memory.storeLE, if_neg this]
  | succ n ih =>
    rw [Memory.storeLE, Memory.read_write, ih]
    by_cases hb : b = a + n
    · have h1 : a ≤ b ∧ b < a + (n + 1) := by omega
      have h2 : b - a = n := by omega
      rw [if_pos hb, if_pos h1, h2]
    · by_cases h1 : a ≤ b ∧ b < a + n
      · have h2 : a ≤ b ∧ b < a + (n + 1) := by omega
        rw [if_neg hb, if_pos h1, if_pos h2]
      · have h2 : ¬ (a ≤ b ∧ b < a + (n + 1)) := by omega
        rw [if_neg hb, if_neg h1, if_neg h2]

theorem Memory.wf_storeLE {m : Memory} (h : m.wf) (a : Nat) (v : Word) (n : Nat) : (m.storeLE a v n).wf := by
  induction n with
  | zero => exact h
  | succ n ih => exact Memory.wf_write ih _ _

theorem Memory.bound_storeLE {m : Memory} {k : Nat} (h : ∀ c ∈ m, c.1 < k) (a : Nat) (v : Word) (n : Nat)
    (hn : n = 0 ∨ a + n ≤ k) : ∀ c ∈ m.storeLE a v n, c.1 < k := by
  induction n with
  | zero => exact h
  | succ n ih => exact Memory.bound_write (ih (by omega)) (by omega) _

/-- The value depends on the bytes read only. -/
theorem Memory.valueLE_congr {m m' : Memory} {a n : Nat} (h : ∀ b, a ≤ b → b < a + n → m.read b = m'.read b) :
    m.valueLE a n = m'.valueLE a n := by
  induction n with
  | zero => rfl
  | succ n ih =>
    simp only [Memory.valueLE]
    rw [ih (fun b h1 h2 => h b h1 (by omega)), h (a + n) (by omega) (by omega)]

/-- The four-byte value written out (R53). -/
theorem Memory.valueLE_four (m : Memory) (a : Nat) :
    m.valueLE a 4 =
      (m.read a).toNat + (m.read (a + 1)).toNat * 2 ^ 8 + (m.read (a + 2)).toNat * 2 ^ 16 +
        (m.read (a + 3)).toNat * 2 ^ 24 := by
  simp [Memory.valueLE]

/-- A word stored little-endian reads back (R53, R54). -/
theorem Memory.valueLE_storeLE (m : Memory) (a : Nat) (v : Word) :
    BitVec.ofNat 32 ((m.storeLE a v 4).valueLE a 4) = v := by
  have h : (m.storeLE a v 4).valueLE a 4 = v.toNat := by
    rw [Memory.valueLE_four]
    simp only [Memory.read_storeLE]
    rw [if_pos (by omega), if_pos (by omega), if_pos (by omega), if_pos (by omega)]
    simpa using sum_bytes v
  rw [h, BitVec.ofNat_toNat, BitVec.setWidth_eq]

/-! ## Stack words (R60) -/

/-- Reading a byte after a stack word is stored below `top`. -/
theorem Memory.read_storeStack (m : Memory) (top : Nat) (v : Word) (b : Nat) (h : 4 ≤ top) :
    (m.storeStack top v).read b = if top - 4 ≤ b ∧ b < top then byteOf 32 v (top - 1 - b) else m.read b := by
  simp only [Memory.storeStack, Memory.read_write]
  by_cases hb : top - 4 ≤ b ∧ b < top
  · rw [if_pos hb]
    have : b = top - 4 ∨ b = top - 3 ∨ b = top - 2 ∨ b = top - 1 := by omega
    rcases this with rfl | rfl | rfl | rfl
    · rw [if_pos rfl, show top - 1 - (top - 4) = 3 by omega]
    · rw [if_neg (by omega), if_pos rfl, show top - 1 - (top - 3) = 2 by omega]
    · rw [if_neg (by omega), if_neg (by omega), if_pos rfl, show top - 1 - (top - 2) = 1 by omega]
    · rw [if_neg (by omega), if_neg (by omega), if_neg (by omega), if_pos rfl, show top - 1 - (top - 1) = 0 by omega]
  · rw [if_neg hb, if_neg (by omega), if_neg (by omega), if_neg (by omega), if_neg (by omega)]

theorem Memory.wf_storeStack {m : Memory} (h : m.wf) (top : Nat) (v : Word) : (m.storeStack top v).wf :=
  Memory.wf_write (Memory.wf_write (Memory.wf_write (Memory.wf_write h _ _) _ _) _ _) _ _

theorem Memory.bound_storeStack {m : Memory} {k : Nat} (h : ∀ c ∈ m, c.1 < k) (top : Nat) (v : Word) (h4 : 4 ≤ top)
    (hk : top ≤ k) : ∀ c ∈ m.storeStack top v, c.1 < k :=
  Memory.bound_write (Memory.bound_write (Memory.bound_write (Memory.bound_write h (by omega) _) (by omega) _)
    (by omega) _) (by omega) _

/-- A stack word depends on its four bytes only. -/
theorem Memory.stackWord_congr {m m' : Memory} {t : Nat} (h : ∀ b, t ≤ b → b < t + 4 → m.read b = m'.read b) :
    m.stackWord t = m'.stackWord t := by
  simp only [Memory.stackWord]
  rw [h t (by omega) (by omega), h (t + 1) (by omega) (by omega), h (t + 2) (by omega) (by omega),
    h (t + 3) (by omega) (by omega)]

/-- Bytes that hold a word in stack order read as that word (R60). -/
theorem Memory.stackWord_of_bytes {m : Memory} {t : Nat} {v : Word} (h0 : m.read t = byteOf 32 v 3)
    (h1 : m.read (t + 1) = byteOf 32 v 2) (h2 : m.read (t + 2) = byteOf 32 v 1) (h3 : m.read (t + 3) = byteOf 32 v 0) :
    m.stackWord t = v := by
  have hv := sum_bytes v
  simp only [Memory.stackWord, h0, h1, h2, h3]
  rw [show (byteOf 32 v 3).toNat * 2 ^ 24 + (byteOf 32 v 2).toNat * 2 ^ 16 + (byteOf 32 v 1).toNat * 2 ^ 8 +
    (byteOf 32 v 0).toNat = v.toNat by omega, BitVec.ofNat_toNat, BitVec.setWidth_eq]

/-- A word stored in stack order reads back (R158). -/
theorem Memory.stackWord_storeStack (m : Memory) (top : Nat) (v : Word) (h : 4 ≤ top) :
    (m.storeStack top v).stackWord (top - 4) = v := by
  apply Memory.stackWord_of_bytes <;> rw [Memory.read_storeStack _ _ _ _ h, if_pos (by omega)] <;> congr 1 <;> omega

end Sys2Proof.Machine
end

