-- ==== Sys2Proof/Laws/Checks.lean ====
section
/-!
SUPPORT. The checks: when each passes, and what it raises when it does not.
-/

namespace Sys2Proof.Machine

/-! ## Sequencing -/

/-- A sequence answers only when its first part does. -/
theorem bind_eq_ok {ε α β : Type} {x : Except ε α} {f : α → Except ε β} {b : β} :
    (x >>= f) = .ok b ↔ ∃ a, x = .ok a ∧ f a = .ok b := by
  cases x <;> simp [bind, Except.bind]

/-- A sequence raises what its first part raises, or what the rest raises. -/
theorem bind_eq_error {ε α β : Type} {x : Except ε α} {f : α → Except ε β} {e : ε} :
    (x >>= f) = .error e ↔ x = .error e ∨ ∃ a, x = .ok a ∧ f a = .error e := by
  cases x <;> simp [bind, Except.bind]

@[simp] theorem ok_bind {ε α β : Type} (a : α) (f : α → Except ε β) : (Except.ok a >>= f) = f a := rfl
@[simp] theorem error_bind {ε α β : Type} (e : ε) (f : α → Except ε β) : (Except.error e >>= f) = .error e := rfl
@[simp] theorem pure_eq_ok {ε α : Type} (a : α) : (pure a : Except ε α) = .ok a := rfl

/-! ## Addresses and bytes -/

theorem checkAddress_of_lt {n : Nat} (h : n < 2 ^ 32) : checkAddress n = .ok () := by
  rw [checkAddress, if_neg (by omega)]

theorem checkAddress_of_ge {n : Nat} (h : 2 ^ 32 ≤ n) : checkAddress n = .error .stackOverflow := by
  rw [checkAddress, if_pos h]

theorem checkAddress_eq_ok {n : Nat} {u : Unit} : checkAddress n = .ok u ↔ n < 2 ^ 32 := by
  by_cases h : n < 2 ^ 32
  · exact iff_of_true (checkAddress_of_lt h) h
  · rw [checkAddress_of_ge (Nat.le_of_not_lt h)]
    simp only [reduceCtorEq, false_iff]
    exact h

theorem checkByte_eq_ok {s : State} {a : Nat} {u : Unit} : checkByte s a = .ok u ↔ a < 2 ^ 32 ∧ a < s.memSize := by
  unfold checkByte
  split
  · simp
    omega
  · split
    · simp
      omega
    · simp
      omega

/-- An ascending access passes exactly when all its bytes exist. -/
theorem checkUp_eq_ok {s : State} {a n : Nat} {u : Unit} :
    checkUp s a n = .ok u ↔ n = 0 ∨ a + n ≤ 2 ^ 32 ∧ a + n ≤ s.memSize := by
  induction n with
  | zero => simp [checkUp]
  | succ n ih =>
    simp only [checkUp, bind_eq_ok, checkByte_eq_ok]
    constructor
    · rintro ⟨_, _, h⟩
      omega
    · intro h
      exact ⟨(), ih.2 (by omega), by omega⟩

theorem checkUp_of_le {s : State} {a n : Nat} (h1 : a + n ≤ 2 ^ 32) (h2 : a + n ≤ s.memSize) :
    checkUp s a n = .ok () := checkUp_eq_ok.2 (.inr ⟨h1, h2⟩)

/-- An ascending access raises at its first byte outside: the payload is that byte's address (R53, R223). -/
theorem checkUp_invalid {s : State} {a n k : Nat} (hk : k < n) (hin : k = 0 ∨ a + k ≤ s.memSize) (hout : s.memSize ≤ a + k)
    (hlt : a + k < 2 ^ 32) : checkUp s a n = .error (.invalidAddress (BitVec.ofNat 32 (a + k))) := by
  induction n with
  | zero => omega
  | succ n ih =>
    by_cases h : k = n
    · subst h
      have h0 : checkUp s a k = .ok () := by
        rw [checkUp_eq_ok]
        omega
      simp only [checkUp, h0, ok_bind, checkByte]
      rw [if_neg (by omega), if_pos hout]
    · simp only [checkUp, ih (by omega), error_bind]

/-- An ascending access that runs past the last address while every byte before exists raises StackOverflow (R53). -/
theorem checkUp_overflow {s : State} {a n k : Nat} (hk : k < n) (hin : k = 0 ∨ a + k ≤ s.memSize)
    (htop : k = 0 ∨ a + k ≤ 2 ^ 32) (hlt : 2 ^ 32 ≤ a + k) : checkUp s a n = .error .stackOverflow := by
  induction n with
  | zero => omega
  | succ n ih =>
    by_cases h : k = n
    · subst h
      have h0 : checkUp s a k = .ok () := by
        rw [checkUp_eq_ok]
        omega
      simp only [checkUp, h0, ok_bind, checkByte]
      rw [if_pos hlt]
    · simp only [checkUp, ih (by omega), error_bind]

/-- A descending access passes exactly when all its bytes exist. -/
theorem checkDown_eq_ok {s : State} {top n : Nat} {u : Unit} :
    checkDown s top n = .ok u ↔ n = 0 ∨ n ≤ top ∧ top ≤ s.memSize := by
  induction n with
  | zero => simp [checkDown]
  | succ n ih =>
    have hlast : ((if top < n + 1 then Except.error CpuError.stackUnderflow
        else if s.memSize ≤ top - 1 - n then .error (.invalidAddress (BitVec.ofNat 32 (top - 1 - n)))
        else .ok ()) = .ok u) ↔ n + 1 ≤ top ∧ top - 1 - n < s.memSize := by
      split
      · simp
        omega
      · split
        · simp
          omega
        · simp
          omega
    simp only [checkDown, bind_eq_ok]
    constructor
    · rintro ⟨_, h1, h2⟩
      have h3 := hlast.1 h2
      have h4 := ih.1 h1
      omega
    · intro h
      exact ⟨u, ih.2 (by omega), hlast.2 (by omega)⟩

theorem checkDown_of_le {s : State} {top n : Nat} (h1 : n ≤ top) (h2 : top ≤ s.memSize) :
    checkDown s top n = .ok () := checkDown_eq_ok.2 (.inr ⟨h1, h2⟩)

/-- The closed form of a push's checks: StackUnderflow at 0, then the first byte, then the room (R150, R191, R210). -/
theorem checkDown_succ (s : State) (top n : Nat) :
    checkDown s top (n + 1) =
      if top = 0 then .error .stackUnderflow
      else if s.memSize ≤ top - 1 then .error (.invalidAddress (BitVec.ofNat 32 (top - 1)))
      else if top < n + 1 then .error .stackUnderflow
      else .ok () := by
  induction n with
  | zero =>
    simp only [checkDown, ok_bind, Nat.zero_add, Nat.sub_zero]
    by_cases h : top = 0
    · rw [if_pos (by omega), if_pos h]
    · rw [if_neg (by omega), if_neg h]
      split
      · rfl
      · rw [if_neg (by omega)]
  | succ n ih =>
    rw [checkDown, ih]
    by_cases h0 : top = 0
    · simp only [if_pos h0, error_bind]
    · by_cases h1 : s.memSize ≤ top - 1
      · simp only [if_neg h0, if_pos h1, error_bind]
      · by_cases h2 : top < n + 1
        · rw [if_neg h0, if_neg h1, if_pos h2, if_neg h0, if_neg h1, error_bind, if_pos (by omega)]
        · rw [if_neg h0, if_neg h1, if_neg h2, ok_bind, if_neg h0, if_neg h1]
          by_cases h3 : top < n + 1 + 1
          · rw [if_pos h3, if_pos h3]
          · rw [if_neg h3, if_neg h3, if_neg (by omega)]

/-! ## No check raises anything but an address error -/

/-- The errors a check of addresses can raise (R58). -/
abbrev AddressError (e : CpuError) : Prop := e = .stackOverflow ∨ e = .stackUnderflow ∨ ∃ a, e = .invalidAddress a

theorem checkAddress_error {n : Nat} {e : CpuError} (h : checkAddress n = .error e) : AddressError e := by
  unfold checkAddress at h
  split at h
  · exact .inl (by cases h; rfl)
  · cases h

theorem checkByte_error {s : State} {a : Nat} {e : CpuError} (h : checkByte s a = .error e) : AddressError e := by
  unfold checkByte at h
  split at h
  · exact .inl (by cases h; rfl)
  · split at h
    · exact .inr (.inr ⟨_, by cases h; rfl⟩)
    · cases h

theorem checkUp_error {s : State} {a n : Nat} {e : CpuError} (h : checkUp s a n = .error e) : AddressError e := by
  induction n with
  | zero => cases h
  | succ n ih =>
    rcases bind_eq_error.1 h with h | ⟨_, _, h⟩
    · exact ih h
    · exact checkByte_error h

theorem checkDown_error {s : State} {top n : Nat} {e : CpuError} (h : checkDown s top n = .error e) :
    AddressError e := by
  cases n with
  | zero => cases h
  | succ n =>
    rw [checkDown_succ] at h
    split at h
    · exact .inr (.inl (by cases h; rfl))
    · split at h
      · exact .inr (.inr ⟨_, by cases h; rfl⟩)
      · split at h
        · exact .inr (.inl (by cases h; rfl))
        · cases h

end Sys2Proof.Machine
end

