-- ==== Sys2Proof/Laws/Ops.lean ====
section
/-!
SUPPORT. One lemma per shared operation that says when it answers and what: proofs cite these instead of unfolding the
operation.
-/

namespace Sys2Proof.Machine

/-! ## Outcomes -/

/-- An instruction that finishes answers a next state: its result, or the state its error leaves (R15). -/
theorem finish_eq_next {s t : State} {x : Except CpuError State} :
    finish s x = .next t ↔ x = .ok t ∨ ∃ e, x = .error e ∧ t = s.raise e := by
  cases x with
  | ok u => simp [finish]
  | error e => simp [finish, eq_comm]

@[simp] theorem finish_ok (s t : State) : finish s (.ok t) = .next t := (rfl)
@[simp] theorem finish_error (s : State) (e : CpuError) : finish s (.error e) = .next (s.raise e) := (rfl)

/-! ## Data accesses -/

theorem effectiveAddress_eq_ok {s : State} {off : Word} {a : Nat} :
    effectiveAddress s off = .ok a ↔
      s.inputs.programStart.toNat + off.toNat < 2 ^ 32 ∧ a = s.inputs.programStart.toNat + off.toNat := by
  simp only [effectiveAddress, bind_eq_ok, checkAddress_eq_ok, pure_eq_ok, Except.ok.injEq]
  constructor
  · rintro ⟨_, h, rfl⟩
    exact ⟨h, rfl⟩
  · rintro ⟨h, rfl⟩
    exact ⟨(), h, rfl⟩

/-- EA(off) does not fit in 32 bits (R57). -/
theorem effectiveAddress_overflow {s : State} {off : Word}
    (h : 2 ^ 32 ≤ s.inputs.programStart.toNat + off.toNat) : effectiveAddress s off = .error .stackOverflow := by
  rw [effectiveAddress, checkAddress_of_ge h, error_bind]

theorem memRead_eq_ok {s : State} {a n : Nat} {v : Word} :
    memRead s a n = .ok v ↔
      (n = 0 ∨ a + n ≤ 2 ^ 32 ∧ a + n ≤ s.memSize) ∧ v = BitVec.ofNat 32 (s.mem.valueLE a n) := by
  simp only [memRead, bind_eq_ok, checkUp_eq_ok, pure_eq_ok, Except.ok.injEq]
  constructor
  · rintro ⟨_, h, rfl⟩
    exact ⟨h, rfl⟩
  · rintro ⟨h, rfl⟩
    exact ⟨(), h, rfl⟩

theorem memWrite_eq_ok {s t : State} {a n : Nat} {v : Word} :
    memWrite s a n v = .ok t ↔
      (n = 0 ∨ a + n ≤ 2 ^ 32 ∧ a + n ≤ s.memSize) ∧ t = { s with mem := s.mem.storeLE a v n } := by
  simp only [memWrite, bind_eq_ok, checkUp_eq_ok, pure_eq_ok, Except.ok.injEq]
  constructor
  · rintro ⟨_, h, rfl⟩
    exact ⟨h, rfl⟩
  · rintro ⟨h, rfl⟩
    exact ⟨(), h, rfl⟩

theorem memRange_eq_ok {s : State} {a n : Nat} {bs : List Byte} :
    memRange s a n = .ok bs ↔
      (n = 0 ∨ a + n ≤ 2 ^ 32 ∧ a + n ≤ s.memSize) ∧ bs = (List.range n).map (fun k => s.mem.read (a + k)) := by
  simp only [memRange, bind_eq_ok, checkUp_eq_ok, pure_eq_ok, Except.ok.injEq]
  constructor
  · rintro ⟨_, h, rfl⟩
    exact ⟨h, rfl⟩
  · rintro ⟨h, rfl⟩
    exact ⟨(), h, rfl⟩

theorem loadOperand_eq_ok {s : State} {off v : Word} :
    loadOperand s off = .ok v ↔
      s.inputs.programStart.toNat + off.toNat + 4 ≤ 2 ^ 32 ∧ s.inputs.programStart.toNat + off.toNat + 4 ≤ s.memSize ∧
        v = BitVec.ofNat 32 (s.mem.valueLE (s.inputs.programStart.toNat + off.toNat) 4) := by
  simp only [loadOperand, bind_eq_ok, effectiveAddress_eq_ok, memRead_eq_ok]
  constructor
  · rintro ⟨_, ⟨_, rfl⟩, h, rfl⟩
    exact ⟨by omega, by omega, rfl⟩
  · rintro ⟨h1, h2, rfl⟩
    exact ⟨_, ⟨by omega, rfl⟩, by omega, rfl⟩

/-- A store of n bytes (n at least 1) at EA(off). -/
theorem storeOperand_eq_ok {s t : State} {off v : Word} {n : Nat} (hn : n ≠ 0) :
    storeOperand s off n v = .ok t ↔
      s.inputs.programStart.toNat + off.toNat + n ≤ 2 ^ 32 ∧ s.inputs.programStart.toNat + off.toNat + n ≤ s.memSize ∧
        t = { s with mem := s.mem.storeLE (s.inputs.programStart.toNat + off.toNat) v n } := by
  simp only [storeOperand, bind_eq_ok, effectiveAddress_eq_ok, memWrite_eq_ok]
  constructor
  · rintro ⟨_, ⟨_, rfl⟩, h, rfl⟩
    exact ⟨by omega, by omega, rfl⟩
  · rintro ⟨h1, h2, rfl⟩
    exact ⟨_, ⟨by omega, rfl⟩, by omega, rfl⟩

/-! ## IP -/

theorem advance_eq_ok {s t : State} {len : Nat} :
    advance len s = .ok t ↔
      (s.reg .ip).toNat + len < 2 ^ 32 ∧ t = s.setReg .ip (s.reg .ip + BitVec.ofNat 32 len) := by
  simp only [advance, bind_eq_ok, checkAddress_eq_ok, pure_eq_ok, Except.ok.injEq]
  constructor
  · rintro ⟨_, h, rfl⟩
    exact ⟨h, rfl⟩
  · rintro ⟨h, rfl⟩
    exact ⟨(), h, rfl⟩

/-- The advance would reach 2^32 (R96). -/
theorem advance_overflow {s : State} {len : Nat} (h : 2 ^ 32 ≤ (s.reg .ip).toNat + len) :
    advance len s = .error .stackOverflow := by
  rw [advance, checkAddress_of_ge h, error_bind]

/-- What writing a destination register leaves: the value alone when it is IP, the value and the advance otherwise. -/
theorem writeDestination_eq_ok {op : Opcode} {dst : Reg} {v : Word} {s t : State} :
    writeDestination op dst v s = .ok t ↔
      dst = .ip ∧ t = s.setReg .ip v ∨
      dst ≠ .ip ∧ (s.reg .ip).toNat + op.length < 2 ^ 32 ∧
        t = (s.setReg dst v).setReg .ip (s.reg .ip + BitVec.ofNat 32 op.length) := by
  unfold writeDestination
  split
  · next h => simp [h, eq_comm]
  · next h =>
    rw [advance_eq_ok, State.reg_setReg_ne s v (Ne.symm h)]
    simp [h]

theorem jumpTo_eq_ok {s t : State} {off : Word} :
    jumpTo off s = .ok t ↔
      s.inputs.programStart.toNat + off.toNat < 2 ^ 32 ∧ t = s.setReg .ip (s.inputs.programStart + off) := by
  have hsum : BitVec.ofNat 32 (s.inputs.programStart.toNat + off.toNat) = s.inputs.programStart + off := by
    apply BitVec.eq_of_toNat_eq
    simp
  simp only [jumpTo, bind_eq_ok, effectiveAddress_eq_ok, pure_eq_ok, Except.ok.injEq]
  constructor
  · rintro ⟨_, ⟨h, rfl⟩, rfl⟩
    exact ⟨h, by rw [hsum]⟩
  · rintro ⟨h, rfl⟩
    exact ⟨_, ⟨h, rfl⟩, by rw [hsum]⟩

theorem jumpIf_eq_ok {op : Opcode} {taken : Bool} {off : Word} {s t : State} :
    jumpIf op taken off s = .ok t ↔
      taken = true ∧ s.inputs.programStart.toNat + off.toNat < 2 ^ 32 ∧
        t = s.setReg .ip (s.inputs.programStart + off) ∨
      taken = false ∧ (s.reg .ip).toNat + op.length < 2 ^ 32 ∧
        t = s.setReg .ip (s.reg .ip + BitVec.ofNat 32 op.length) := by
  cases taken
  · simp [jumpIf, advance_eq_ok]
  · simp [jumpIf, jumpTo_eq_ok]

theorem compareAndAdvance_eq_ok {op : Opcode} {a b : Nat} {s t : State} :
    compareAndAdvance op a b s = .ok t ↔
      (s.reg .ip).toNat + op.length < 2 ^ 32 ∧
        t = { s with flags := compareOutcome a b }.setReg .ip (s.reg .ip + BitVec.ofNat 32 op.length) := by
  rw [compareAndAdvance, advance_eq_ok]
  simp

/-! ## Stores and sums in memory -/

theorem storeAndAdvance_eq_ok {op : Opcode} {off v : Word} {n : Nat} {s t : State} (hn : n ≠ 0) :
    storeAndAdvance op off n v s = .ok t ↔
      (s.inputs.programStart.toNat + off.toNat + n ≤ 2 ^ 32 ∧ s.inputs.programStart.toNat + off.toNat + n ≤ s.memSize) ∧
      (s.reg .ip).toNat + op.length < 2 ^ 32 ∧
      t = { s with mem := s.mem.storeLE (s.inputs.programStart.toNat + off.toNat) v n }.setReg .ip
            (s.reg .ip + BitVec.ofNat 32 op.length) := by
  simp only [storeAndAdvance, bind_eq_ok, storeOperand_eq_ok hn, advance_eq_ok]
  constructor
  · rintro ⟨_, ⟨h1, h2, rfl⟩, h3, rfl⟩
    simp only [State.reg_with_mem] at h3 ⊢
    exact ⟨⟨h1, h2⟩, h3, trivial⟩
  · rintro ⟨⟨h1, h2⟩, h3, rfl⟩
    refine ⟨_, ⟨h1, h2, rfl⟩, ?_⟩
    simp only [State.reg_with_mem]
    exact ⟨h3, trivial⟩

theorem addToMemory_eq_ok {op : Opcode} {off v : Word} {s t : State} :
    addToMemory op off v s = .ok t ↔
      (s.inputs.programStart.toNat + off.toNat + 4 ≤ 2 ^ 32 ∧ s.inputs.programStart.toNat + off.toNat + 4 ≤ s.memSize) ∧
      (s.reg .ip).toNat + op.length < 2 ^ 32 ∧
      t = { s with
            mem := s.mem.storeLE (s.inputs.programStart.toNat + off.toNat)
              (BitVec.ofNat 32 (s.mem.valueLE (s.inputs.programStart.toNat + off.toNat) 4) + v) 4 }.setReg .ip
            (s.reg .ip + BitVec.ofNat 32 op.length) := by
  simp only [addToMemory, bind_eq_ok, effectiveAddress_eq_ok, memRead_eq_ok, memWrite_eq_ok, advance_eq_ok]
  constructor
  · rintro ⟨_, ⟨_, rfl⟩, _, ⟨_, rfl⟩, _, ⟨h2, rfl⟩, h3, rfl⟩
    simp only [State.reg_with_mem] at h3 ⊢
    exact ⟨by omega, h3, trivial⟩
  · rintro ⟨⟨h1, h2⟩, h3, rfl⟩
    refine ⟨_, ⟨by omega, rfl⟩, _, ⟨by omega, rfl⟩, _, ⟨by omega, rfl⟩, ?_⟩
    simp only [State.reg_with_mem]
    exact ⟨h3, trivial⟩

/-! ## The stack -/

@[simp] theorem pushWord_flags (v : Word) (s : State) : (pushWord v s).flags = s.flags := (rfl)
@[simp] theorem pushWord_inInt (v : Word) (s : State) : (pushWord v s).inInt = s.inInt := (rfl)
@[simp] theorem pushWord_run (v : Word) (s : State) : (pushWord v s).run = s.run := (rfl)
@[simp] theorem pushWord_inputs (v : Word) (s : State) : (pushWord v s).inputs = s.inputs := (rfl)
@[simp] theorem pushWord_memSize (v : Word) (s : State) : (pushWord v s).memSize = s.memSize := (rfl)
@[simp] theorem pushWord_mem (v : Word) (s : State) : (pushWord v s).mem = s.mem.storeStack (s.reg .sp).toNat v := (rfl)
@[simp] theorem pushWord_sp (v : Word) (s : State) : (pushWord v s).reg .sp = s.reg .sp - 4#32 := by
  simp [pushWord]

/-- A push changes no register but SP. -/
theorem pushWord_reg_ne (v : Word) (s : State) {r : Reg} (h : r ≠ .sp) : (pushWord v s).reg r = s.reg r := by
  rw [pushWord, State.reg_setReg_ne _ _ h, State.reg_with_mem]

theorem push_eq_ok {v : Word} {s t : State} :
    push v s = .ok t ↔ 4 ≤ (s.reg .sp).toNat ∧ (s.reg .sp).toNat ≤ s.memSize ∧ t = pushWord v s := by
  simp only [push, bind_eq_ok, checkDown_eq_ok, pure_eq_ok, Except.ok.injEq]
  constructor
  · rintro ⟨_, h, rfl⟩
    exact ⟨by omega, by omega, rfl⟩
  · rintro ⟨h1, h2, rfl⟩
    exact ⟨(), by omega, rfl⟩

theorem pop_eq_ok {s : State} {p : Word × State} :
    pop s = .ok p ↔ (s.reg .sp).toNat + 4 < 2 ^ 32 ∧ (s.reg .sp).toNat + 4 ≤ s.memSize ∧ p = popWord s := by
  simp only [pop, bind_eq_ok, checkUp_eq_ok, checkAddress_eq_ok, pure_eq_ok, Except.ok.injEq]
  constructor
  · rintro ⟨_, h, _, h', rfl⟩
    exact ⟨by omega, by omega, rfl⟩
  · rintro ⟨h1, h2, rfl⟩
    exact ⟨(), by omega, (), h1, rfl⟩

theorem pushAndAdvance_eq_ok {op : Opcode} {v : Word} {s t : State} :
    pushAndAdvance op v s = .ok t ↔
      (4 ≤ (s.reg .sp).toNat ∧ (s.reg .sp).toNat ≤ s.memSize) ∧ (s.reg .ip).toNat + op.length < 2 ^ 32 ∧
        t = (pushWord v s).setReg .ip (s.reg .ip + BitVec.ofNat 32 op.length) := by
  have hip : (pushWord v s).reg .ip = s.reg .ip := pushWord_reg_ne v s (by decide)
  simp only [pushAndAdvance, bind_eq_ok, push_eq_ok, advance_eq_ok]
  constructor
  · rintro ⟨_, ⟨h1, h2, rfl⟩, h3, rfl⟩
    rw [hip] at h3 ⊢
    exact ⟨⟨h1, h2⟩, h3, rfl⟩
  · rintro ⟨⟨h1, h2⟩, h3, rfl⟩
    exact ⟨_, ⟨h1, h2, rfl⟩, by rw [hip]; exact h3, by rw [hip]⟩

/-! ## Frames -/

@[simp] theorem pushFrame_flags (ret : Word) (s : State) : (pushFrame ret s).flags = s.flags := by
  simp only [pushFrame, State.setReg_flags, pushWord_flags]
@[simp] theorem pushFrame_inInt (ret : Word) (s : State) : (pushFrame ret s).inInt = s.inInt := by
  simp only [pushFrame, State.setReg_inInt, pushWord_inInt]
@[simp] theorem pushFrame_run (ret : Word) (s : State) : (pushFrame ret s).run = s.run := by
  simp only [pushFrame, State.setReg_run, pushWord_run]
@[simp] theorem pushFrame_inputs (ret : Word) (s : State) : (pushFrame ret s).inputs = s.inputs := by
  simp only [pushFrame, State.setReg_inputs, pushWord_inputs]
@[simp] theorem pushFrame_memSize (ret : Word) (s : State) : (pushFrame ret s).memSize = s.memSize := by
  simp only [pushFrame, State.setReg_memSize, pushWord_memSize]

/-- Lowering a word by k, when there is room. -/
theorem toNat_sub_of_le {v : Word} {k : Nat} (h : k ≤ v.toNat) : (v - BitVec.ofNat 32 k).toNat = v.toNat - k := by
  have := v.isLt
  simp only [BitVec.toNat_sub, BitVec.toNat_ofNat]
  omega

/-- Raising a word by k, when it does not wrap. -/
theorem toNat_add_of_lt {v : Word} {k : Nat} (h : v.toNat + k < 2 ^ 32) :
    (v + BitVec.ofNat 32 k).toNat = v.toNat + k := by
  simp only [BitVec.toNat_add, BitVec.toNat_ofNat]
  omega

/-- The stack pointer after one more push. -/
theorem sub_word (v : Word) (k : Nat) : v - BitVec.ofNat 32 k - 4#32 = v - BitVec.ofNat 32 (k + 4) := by
  apply BitVec.eq_of_toNat_eq
  simp only [BitVec.toNat_sub, BitVec.toNat_ofNat]
  omega

/-- The stack pointer after one more pop. -/
theorem add_word (v : Word) (k : Nat) : v + BitVec.ofNat 32 k + 4#32 = v + BitVec.ofNat 32 (k + 4) := by
  apply BitVec.eq_of_toNat_eq
  simp only [BitVec.toNat_add, BitVec.toNat_ofNat]
  omega

/-- The stack pointer after six pushes. -/
theorem sub_six_words (v : Word) : v - 4#32 - 4#32 - 4#32 - 4#32 - 4#32 - 4#32 = v - 24#32 := by
  rw [sub_word v 4, sub_word v 8, sub_word v 12, sub_word v 16, sub_word v 20]

/-- The registers after a frame is pushed: SP and FP are 24 lower than SP was, every other register keeps its value
(R190). -/
theorem pushFrame_reg (ret : Word) (s : State) (r : Reg) :
    (pushFrame ret s).reg r = if r = .sp ∨ r = .fp then s.reg .sp - 24#32 else s.reg r := by
  cases r <;> simp [pushFrame, State.reg_setReg, pushWord_reg_ne, sub_six_words]

/-- The memory after a frame is pushed: six stack words below the old SP, R1 highest (R190). -/
theorem pushFrame_mem (ret : Word) (s : State) (h : 24 ≤ (s.reg .sp).toNat) :
    (pushFrame ret s).mem =
      (((((s.mem.storeStack (s.reg .sp).toNat (s.reg .r1)).storeStack ((s.reg .sp).toNat - 4) (s.reg .r2)).storeStack
        ((s.reg .sp).toNat - 8) (s.reg .r3)).storeStack ((s.reg .sp).toNat - 12) (s.reg .r4)).storeStack
        ((s.reg .sp).toNat - 16) ret).storeStack ((s.reg .sp).toNat - 20) 24#32 := by
  simp only [pushFrame, State.setReg_mem, pushWord_mem, pushWord_sp, frameBytes]
  rw [sub_word _ 4, sub_word _ 8, sub_word _ 12, sub_word _ 16]
  simp only [Nat.reduceAdd]
  rw [toNat_sub_of_le (k := 4) (by omega), toNat_sub_of_le (k := 8) (by omega), toNat_sub_of_le (k := 12) (by omega),
    toNat_sub_of_le (k := 16) (by omega), toNat_sub_of_le (k := 20) (by omega)]

/-- What a Ret that passes its checks leaves (R192). -/
theorem returnFromFrame_eq_ok {s t : State} :
    returnFromFrame s = .ok t ↔
      ((s.reg .fp).toNat + 24 < 2 ^ 32 ∧ (s.reg .fp).toNat + 24 ≤ s.memSize) ∧
        (s.reg .fp).toNat + (s.mem.stackWord (s.reg .fp).toNat).toNat < 2 ^ 32 ∧ t = unwindFrame s := by
  simp only [returnFromFrame, bind_eq_ok, checkUp_eq_ok, checkAddress_eq_ok, pure_eq_ok, Except.ok.injEq, frameBytes]
  constructor
  · rintro ⟨_, h, _, h', _, h'', rfl⟩
    exact ⟨by omega, h'', rfl⟩
  · rintro ⟨h1, h2, rfl⟩
    exact ⟨(), by omega, (), by omega, (), h2, rfl⟩

@[simp] theorem popWord_value (s : State) : (popWord s).1 = s.mem.stackWord (s.reg .sp).toNat := (rfl)
@[simp] theorem popWord_mem (s : State) : (popWord s).2.mem = s.mem := (rfl)
@[simp] theorem popWord_sp (s : State) : (popWord s).2.reg .sp = s.reg .sp + 4#32 := by
  simp [popWord]
@[simp] theorem popWord_flags (s : State) : (popWord s).2.flags = s.flags := (rfl)
@[simp] theorem popWord_inInt (s : State) : (popWord s).2.inInt = s.inInt := (rfl)
@[simp] theorem popWord_run (s : State) : (popWord s).2.run = s.run := (rfl)
@[simp] theorem popWord_inputs (s : State) : (popWord s).2.inputs = s.inputs := (rfl)
@[simp] theorem popWord_memSize (s : State) : (popWord s).2.memSize = s.memSize := (rfl)

/-- A pop changes no register but SP. -/
theorem popWord_reg_ne (s : State) {r : Reg} (h : r ≠ .sp) : (popWord s).2.reg r = s.reg r := by
  rw [popWord, State.reg_setReg_ne _ _ h]

@[simp] theorem unwindFrame_flags (s : State) : (unwindFrame s).flags = s.flags := by
  simp only [unwindFrame, State.setReg_flags, popWord_flags]
@[simp] theorem unwindFrame_inInt (s : State) : (unwindFrame s).inInt = s.inInt := by
  simp only [unwindFrame, State.setReg_inInt, popWord_inInt]
@[simp] theorem unwindFrame_run (s : State) : (unwindFrame s).run = s.run := by
  simp only [unwindFrame, State.setReg_run, popWord_run]
@[simp] theorem unwindFrame_inputs (s : State) : (unwindFrame s).inputs = s.inputs := by
  simp only [unwindFrame, State.setReg_inputs, popWord_inputs]
@[simp] theorem unwindFrame_memSize (s : State) : (unwindFrame s).memSize = s.memSize := by
  simp only [unwindFrame, State.setReg_memSize, popWord_memSize]
@[simp] theorem unwindFrame_mem (s : State) : (unwindFrame s).mem = s.mem := by
  simp only [unwindFrame, State.setReg_mem, popWord_mem]

/-- The registers after a frame is unwound: the six words at FP, FP+4, .., FP+20 (R192). -/
theorem unwindFrame_reg (s : State) (r : Reg) (h : (s.reg .fp).toNat + 24 < 2 ^ 32) :
    (unwindFrame s).reg r =
      match r with
      | .ip => s.mem.stackWord ((s.reg .fp).toNat + 4)
      | .r4 => s.mem.stackWord ((s.reg .fp).toNat + 8)
      | .r3 => s.mem.stackWord ((s.reg .fp).toNat + 12)
      | .r2 => s.mem.stackWord ((s.reg .fp).toNat + 16)
      | .r1 => s.mem.stackWord ((s.reg .fp).toNat + 20)
      | .sp => s.reg .fp + 24#32
      | .fp => s.reg .fp + s.mem.stackWord (s.reg .fp).toNat
      | .r5 => s.reg .r5
      | .r6 => s.reg .r6
      | .r7 => s.reg .r7
      | .r8 => s.reg .r8 := by
  have at4 : (s.reg .fp + 4#32).toNat = (s.reg .fp).toNat + 4 := toNat_add_of_lt (k := 4) (by omega)
  have at8 : (s.reg .fp + 8#32).toNat = (s.reg .fp).toNat + 8 := toNat_add_of_lt (k := 8) (by omega)
  have at12 : (s.reg .fp + 12#32).toNat = (s.reg .fp).toNat + 12 := toNat_add_of_lt (k := 12) (by omega)
  have at16 : (s.reg .fp + 16#32).toNat = (s.reg .fp).toNat + 16 := toNat_add_of_lt (k := 16) (by omega)
  have at20 : (s.reg .fp + 20#32).toNat = (s.reg .fp).toNat + 20 := toNat_add_of_lt (k := 20) (by omega)
  have w8 : s.reg .fp + 4#32 + 4#32 = s.reg .fp + 8#32 := add_word _ 4
  have w12 : s.reg .fp + 8#32 + 4#32 = s.reg .fp + 12#32 := add_word _ 8
  have w16 : s.reg .fp + 12#32 + 4#32 = s.reg .fp + 16#32 := add_word _ 12
  have w20 : s.reg .fp + 16#32 + 4#32 = s.reg .fp + 20#32 := add_word _ 16
  have w24 : s.reg .fp + 20#32 + 4#32 = s.reg .fp + 24#32 := add_word _ 20
  cases r <;>
    simp only [unwindFrame, State.reg_setReg, popWord_reg_ne, popWord_value, popWord_mem, popWord_sp, State.setReg_mem,
      reduceCtorEq, if_true, if_false, ne_eq, not_false_eq_true, w8, w12, w16, w20, w24, at4, at8, at12, at16, at20]

/-! ## Call and interrupt entry -/

/-- When a context save passes its checks (R210). -/
theorem checkFrameSave_eq_ok {s : State} {len : Nat} {u : Unit} :
    checkFrameSave s len = .ok u ↔
      s.inInt = true ∨
        (24 ≤ (s.reg .sp).toNat ∧ (s.reg .sp).toNat ≤ s.memSize) ∧ (s.reg .ip).toNat + len < 2 ^ 32 := by
  unfold checkFrameSave
  split
  · next h => simp [h]
  · next h =>
    simp only [bind_eq_ok, checkDown_eq_ok, checkAddress_eq_ok, frameBytes]
    constructor
    · rintro ⟨_, h1, h2⟩
      exact .inr ⟨by omega, h2⟩
    · rintro (h1 | ⟨h1, h2⟩)
      · exact absurd h1 h
      · exact ⟨(), by omega, h2⟩

/-- What an interrupt entry that passes its checks leaves (R210). -/
theorem dispatch_eq_ok {idx len : Nat} {s t : State} :
    dispatch idx len s = .ok t ↔
      (s.inInt = true ∨
        (24 ≤ (s.reg .sp).toNat ∧ (s.reg .sp).toNat ≤ s.memSize) ∧ (s.reg .ip).toNat + len < 2 ^ 32) ∧
      (s.inputs.interruptTable.toNat + idx * 4 + 4 ≤ 2 ^ 32 ∧
        s.inputs.interruptTable.toNat + idx * 4 + 4 ≤ s.memSize) ∧
      t = (saveContext s len).setReg .ip
            (BitVec.ofNat 32 ((saveContext s len).mem.valueLE (s.inputs.interruptTable.toNat + idx * 4) 4)) := by
  simp only [dispatch, bind_eq_ok, checkFrameSave_eq_ok, checkUp_eq_ok, pure_eq_ok, Except.ok.injEq, ivtStride]
  constructor
  · rintro ⟨_, h1, _, h2, rfl⟩
    exact ⟨h1, by omega, rfl⟩
  · rintro ⟨h1, h2, rfl⟩
    exact ⟨(), h1, (), by omega, rfl⟩

theorem saveContext_nested {s : State} (h : s.inInt = true) (len : Nat) : saveContext s len = s := by
  simp [saveContext, h]

theorem saveContext_first {s : State} (h : s.inInt = false) (len : Nat) :
    saveContext s len = { pushFrame (s.reg .ip + BitVec.ofNat 32 len) s with inInt := true } := by
  simp [saveContext, h]

@[simp] theorem saveContext_flags (s : State) (len : Nat) : (saveContext s len).flags = s.flags := by
  unfold saveContext; split <;> rfl
@[simp] theorem saveContext_run (s : State) (len : Nat) : (saveContext s len).run = s.run := by
  unfold saveContext; split <;> rfl
@[simp] theorem saveContext_inputs (s : State) (len : Nat) : (saveContext s len).inputs = s.inputs := by
  unfold saveContext; split <;> rfl
@[simp] theorem saveContext_memSize (s : State) (len : Nat) : (saveContext s len).memSize = s.memSize := by
  unfold saveContext; split <;> rfl
@[simp] theorem saveContext_inInt (s : State) (len : Nat) : (saveContext s len).inInt = true := by
  unfold saveContext
  split
  · assumption
  · rfl

end Sys2Proof.Machine
end

