-- ==== Sys2Proof/Laws/CallRet.lean ====
section
/-!
SUPPORT. What a Call that passes its checks leaves.
-/

namespace Sys2Proof.Machine

/-- A Call that passes its checks pushes the frame and goes to PS + addr (R191). -/
theorem callTo_eq_ok {addr : Word} {s t : State} :
    callTo addr s = .ok t ↔
      (24 ≤ (s.reg .sp).toNat ∧ (s.reg .sp).toNat ≤ s.memSize) ∧ (s.reg .ip).toNat + 5 < 2 ^ 32 ∧
      s.inputs.programStart.toNat + addr.toNat < 2 ^ 32 ∧
      t = (pushFrame (s.reg .ip + 5#32) s).setReg .ip (s.inputs.programStart + addr) := by
  have hlen : Opcode.call.length = 5 := rfl
  have hsum : BitVec.ofNat 32 (s.inputs.programStart.toNat + addr.toNat) = s.inputs.programStart + addr := by
    apply BitVec.eq_of_toNat_eq
    simp
  simp only [callTo, bind_eq_ok, checkDown_eq_ok, checkAddress_eq_ok, effectiveAddress_eq_ok, pure_eq_ok,
    Except.ok.injEq, frameBytes, hlen]
  constructor
  · rintro ⟨_, h1, _, h2, _, ⟨h3, rfl⟩, rfl⟩
    exact ⟨by omega, h2, h3, by rw [hsum]⟩
  · rintro ⟨h1, h2, h3, rfl⟩
    exact ⟨(), by omega, (), h2, _, ⟨h3, rfl⟩, by rw [hsum]⟩

end Sys2Proof.Machine
end

