-- ==== Sys2Proof/Laws/PerInstr.lean ====
section
/-!
SUPPORT. Statements about every instruction as syntax, one lemma per constructor.
-/

/-- An instruction's encoding has the length the step advances by, between 1 and 9 bytes (R80, R85), and is an
instruction's byte string (R92). -/
def Sys2Proof.Laws.EncodingShape.Statement (i : Sys2Proof.Instr) : Prop :=
  (Sys2Proof.encode i).length = i.length ∧ 1 ≤ i.length ∧ i.length ≤ Sys2Proof.maxInstrLength ∧ i.wellFormed = true

namespace Sys2Proof.Laws

/-- The shape from its two parts that depend on the operands. -/
theorem encodingShape_of {i : Instr} (hlen : i.operandBytes.length + 1 = i.length)
    (hregs : (registerOffsets i.opcode.format.operands 0).all
      (fun k => (Reg.ofByte (windowByte i.operandBytes k)).isSome) = true) : EncodingShape.Statement i := by
  refine ⟨by simp [encode, hlen], by omega, Opcode.length_le i.opcode, ?_⟩
  simp only [Instr.wellFormed, wellFormedBytes, encode, Opcode.ofByte_toByte, hlen]
  rw [hregs]
  simp [Instr.length]

theorem EncodingShape.movRegReg (dst src : Reg) : EncodingShape.Statement (.movRegReg dst src) :=
  encodingShape_of rfl (by
    simp [Instr.opcode, Opcode.format, Format.operands, registerOffsets, windowByte, Instr.operandBytes])

theorem EncodingShape.movRegU8 (dst : Reg) (imm : BitVec 8) : EncodingShape.Statement (.movRegU8 dst imm) :=
  encodingShape_of rfl (by
    simp [Instr.opcode, Opcode.format, Format.operands, registerOffsets, windowByte, Instr.operandBytes])

theorem EncodingShape.movRegU16 (dst : Reg) (imm : BitVec 16) : EncodingShape.Statement (.movRegU16 dst imm) :=
  encodingShape_of rfl (by
    simp [Instr.opcode, Opcode.format, Format.operands, registerOffsets, windowByte, Instr.operandBytes])

theorem EncodingShape.movRegU32 (dst : Reg) (imm : BitVec 32) : EncodingShape.Statement (.movRegU32 dst imm) :=
  encodingShape_of rfl (by
    simp [Instr.opcode, Opcode.format, Format.operands, registerOffsets, windowByte, Instr.operandBytes])

theorem EncodingShape.movRegMem (dst : Reg) (addr : Word) : EncodingShape.Statement (.movRegMem dst addr) :=
  encodingShape_of rfl (by
    simp [Instr.opcode, Opcode.format, Format.operands, registerOffsets, windowByte, Instr.operandBytes])

theorem EncodingShape.movMemReg (addr : Word) (src : Reg) : EncodingShape.Statement (.movMemReg addr src) :=
  encodingShape_of rfl (by
    simp [Instr.opcode, Opcode.format, Format.operands, registerOffsets, OperandKind.size, windowByte,
      Instr.operandBytes, bytes32])

theorem EncodingShape.movMemU8 (addr : Word) (imm : BitVec 8) : EncodingShape.Statement (.movMemU8 addr imm) :=
  encodingShape_of rfl rfl

theorem EncodingShape.movMemU16 (addr : Word) (imm : BitVec 16) : EncodingShape.Statement (.movMemU16 addr imm) :=
  encodingShape_of rfl rfl

theorem EncodingShape.movMemU32 (addr : Word) (imm : BitVec 32) : EncodingShape.Statement (.movMemU32 addr imm) :=
  encodingShape_of rfl rfl

theorem EncodingShape.addRegReg (dst src : Reg) : EncodingShape.Statement (.addRegReg dst src) :=
  encodingShape_of rfl (by
    simp [Instr.opcode, Opcode.format, Format.operands, registerOffsets, windowByte, Instr.operandBytes])

theorem EncodingShape.addRegU8 (dst : Reg) (imm : BitVec 8) : EncodingShape.Statement (.addRegU8 dst imm) :=
  encodingShape_of rfl (by
    simp [Instr.opcode, Opcode.format, Format.operands, registerOffsets, windowByte, Instr.operandBytes])

theorem EncodingShape.addRegU16 (dst : Reg) (imm : BitVec 16) : EncodingShape.Statement (.addRegU16 dst imm) :=
  encodingShape_of rfl (by
    simp [Instr.opcode, Opcode.format, Format.operands, registerOffsets, windowByte, Instr.operandBytes])

theorem EncodingShape.addRegU32 (dst : Reg) (imm : BitVec 32) : EncodingShape.Statement (.addRegU32 dst imm) :=
  encodingShape_of rfl (by
    simp [Instr.opcode, Opcode.format, Format.operands, registerOffsets, windowByte, Instr.operandBytes])

theorem EncodingShape.addRegMem (dst : Reg) (addr : Word) : EncodingShape.Statement (.addRegMem dst addr) :=
  encodingShape_of rfl (by
    simp [Instr.opcode, Opcode.format, Format.operands, registerOffsets, windowByte, Instr.operandBytes])

theorem EncodingShape.addMemReg (addr : Word) (src : Reg) : EncodingShape.Statement (.addMemReg addr src) :=
  encodingShape_of rfl (by
    simp [Instr.opcode, Opcode.format, Format.operands, registerOffsets, OperandKind.size, windowByte,
      Instr.operandBytes, bytes32])

theorem EncodingShape.incReg (reg : Reg) : EncodingShape.Statement (.incReg reg) :=
  encodingShape_of rfl (by
    simp [Instr.opcode, Opcode.format, Format.operands, registerOffsets, windowByte, Instr.operandBytes])

theorem EncodingShape.incMem (addr : Word) : EncodingShape.Statement (.incMem addr) :=
  encodingShape_of rfl rfl

theorem EncodingShape.pushReg (src : Reg) : EncodingShape.Statement (.pushReg src) :=
  encodingShape_of rfl (by
    simp [Instr.opcode, Opcode.format, Format.operands, registerOffsets, windowByte, Instr.operandBytes])

theorem EncodingShape.pushMem (addr : Word) : EncodingShape.Statement (.pushMem addr) :=
  encodingShape_of rfl rfl

theorem EncodingShape.pushU8 (imm : BitVec 8) : EncodingShape.Statement (.pushU8 imm) :=
  encodingShape_of rfl rfl

theorem EncodingShape.pushU16 (imm : BitVec 16) : EncodingShape.Statement (.pushU16 imm) :=
  encodingShape_of rfl rfl

theorem EncodingShape.pushU32 (imm : BitVec 32) : EncodingShape.Statement (.pushU32 imm) :=
  encodingShape_of rfl rfl

theorem EncodingShape.popReg (dst : Reg) : EncodingShape.Statement (.popReg dst) :=
  encodingShape_of rfl (by
    simp [Instr.opcode, Opcode.format, Format.operands, registerOffsets, windowByte, Instr.operandBytes])

theorem EncodingShape.cmpReg (a b : Reg) : EncodingShape.Statement (.cmpReg a b) :=
  encodingShape_of rfl (by
    simp [Instr.opcode, Opcode.format, Format.operands, registerOffsets, windowByte, Instr.operandBytes])

theorem EncodingShape.cmpU8 (a b : BitVec 8) : EncodingShape.Statement (.cmpU8 a b) :=
  encodingShape_of rfl rfl

theorem EncodingShape.cmpU16 (a b : BitVec 16) : EncodingShape.Statement (.cmpU16 a b) :=
  encodingShape_of rfl rfl

theorem EncodingShape.cmpU32 (a b : BitVec 32) : EncodingShape.Statement (.cmpU32 a b) :=
  encodingShape_of rfl rfl

theorem EncodingShape.jump (addr : Word) : EncodingShape.Statement (.jump addr) :=
  encodingShape_of rfl rfl

theorem EncodingShape.jumpGe (addr : Word) : EncodingShape.Statement (.jumpGe addr) :=
  encodingShape_of rfl rfl

theorem EncodingShape.jumpGte (addr : Word) : EncodingShape.Statement (.jumpGte addr) :=
  encodingShape_of rfl rfl

theorem EncodingShape.jumpLt (addr : Word) : EncodingShape.Statement (.jumpLt addr) :=
  encodingShape_of rfl rfl

theorem EncodingShape.jumpLte (addr : Word) : EncodingShape.Statement (.jumpLte addr) :=
  encodingShape_of rfl rfl

theorem EncodingShape.call (addr : Word) : EncodingShape.Statement (.call addr) :=
  encodingShape_of rfl rfl

theorem EncodingShape.load (dst : Reg) (addr : Word) : EncodingShape.Statement (.load dst addr) :=
  encodingShape_of rfl (by
    simp [Instr.opcode, Opcode.format, Format.operands, registerOffsets, windowByte, Instr.operandBytes])

theorem EncodingShape.storeReg (src : Reg) (addr : Word) : EncodingShape.Statement (.storeReg src addr) :=
  encodingShape_of rfl (by
    simp [Instr.opcode, Opcode.format, Format.operands, registerOffsets, windowByte, Instr.operandBytes])

theorem EncodingShape.storeU8 (addr : Word) (imm : BitVec 8) : EncodingShape.Statement (.storeU8 addr imm) :=
  encodingShape_of rfl rfl

theorem EncodingShape.storeU16 (addr : Word) (imm : BitVec 16) : EncodingShape.Statement (.storeU16 addr imm) :=
  encodingShape_of rfl rfl

theorem EncodingShape.storeU32 (addr : Word) (imm : BitVec 32) : EncodingShape.Statement (.storeU32 addr imm) :=
  encodingShape_of rfl rfl

theorem EncodingShape.interrupt (idx : BitVec 8) : EncodingShape.Statement (.interrupt idx) :=
  encodingShape_of rfl rfl

theorem EncodingShape.interruptReg (reg : Reg) : EncodingShape.Statement (.interruptReg reg) :=
  encodingShape_of rfl (by
    simp [Instr.opcode, Opcode.format, Format.operands, registerOffsets, windowByte, Instr.operandBytes])

theorem EncodingShape.halt : EncodingShape.Statement .halt :=
  encodingShape_of rfl rfl

theorem EncodingShape.ret : EncodingShape.Statement .ret :=
  encodingShape_of rfl rfl

end Sys2Proof.Laws
end

