-- ==== Sys2Proof/Laws/Step.lean ====
section
/-!
SUPPORT. The fetch and the step of a running engine.
-/

namespace Sys2Proof.Machine

/-- When a fetch answers an instruction (R94, R95). -/
theorem fetch_eq_ok {s : State} {i : Instr} :
    fetch s = .ok i ↔
      ((s.reg .ip).toNat < 2 ^ 32 ∧ (s.reg .ip).toNat < s.memSize) ∧
        ∃ op, decodeOpcode (s.mem.read (s.reg .ip).toNat) = .ok op ∧
          (op.length - 1 = 0 ∨ (s.reg .ip).toNat + 1 + (op.length - 1) ≤ 2 ^ 32 ∧
            (s.reg .ip).toNat + 1 + (op.length - 1) ≤ s.memSize) ∧
          decodeWindow op
            ((List.range (op.length - 1)).map (fun k => s.mem.read ((s.reg .ip).toNat + 1 + k))) = .ok i := by
  simp only [fetch, bind_eq_ok, checkByte_eq_ok, memRange_eq_ok]
  constructor
  · rintro ⟨_, h1, op, h2, _, ⟨h3, rfl⟩, h4⟩
    exact ⟨h1, op, h2, h3, h4⟩
  · rintro ⟨h1, op, h2, h3, h4⟩
    exact ⟨(), h1, op, h2, _, ⟨h3, rfl⟩, h4⟩

/-- The step of a running engine whose fetch answers. -/
theorem step_of_fetch {s : State} {i : Instr} (hrun : s.run = .running) (h : fetch s = .ok i) : step s = exec i s := by
  simp [step, hrun, h]

/-- The step of a running engine whose fetch raises. -/
theorem step_of_fetch_error {s : State} {e : CpuError} (hrun : s.run = .running) (h : fetch s = .error e) :
    step s = .next (s.raise e) := by
  simp [step, hrun, h]

/-- Placing bytes keeps the canonical form. -/
theorem wf_placeBytes {m : Memory} (h : m.wf) (n a : Nat) (bs : List Byte) : (placeBytes n m a bs).wf := by
  induction bs generalizing m a with
  | nil => exact h
  | cons b rest ih =>
    refine ih ?_ (a + 1)
    split
    · exact Memory.wf_write h a b
    · exact h

/-- Placing bytes keeps every listed address inside memory. -/
theorem bound_placeBytes {m : Memory} {n : Nat} (h : ∀ c ∈ m, c.1 < n) (a : Nat) (bs : List Byte) :
    ∀ c ∈ placeBytes n m a bs, c.1 < n := by
  induction bs generalizing m a with
  | nil => exact h
  | cons b rest ih =>
    refine ih ?_ (a + 1)
    split
    · next ha => exact Memory.bound_write h ha b
    · exact h

/-- The reset memory is canonical. -/
theorem wf_reset : State.reset.mem.wf := ⟨List.Pairwise.nil, by simp [State.reset]⟩

end Sys2Proof.Machine
end

