-- ==== Sys2Proof/Tests/Slice0.lean ====
section
/-!
SUPPORT. Tests of the model. Expected results come from the spec: the vectors V-* and scenarios S* of
spec/95_test_vectors.md and the examples of the instruction rules, named at each test. Each runs one step.
-/

namespace Sys2Proof.Tests

open Sys2Proof.Machine

/-! ## Helpers -/

/-- A machine after reset with the given MEM_SIZE, PS and STACK_START, IVT at 0x40, FP at 0, and byte strings placed in
memory. -/
def boot (memSize ps stack : Nat) (image : List (Nat × List Byte)) : State :=
  applyReset ⟨BitVec.ofNat 32 ps, BitVec.ofNat 32 stack, 0x40#32⟩ 0
    { State.reset with
      memSize := memSize
      mem := image.foldl (fun m p => placeBytes memSize m p.1 p.2) [] }

/-- The state with some registers set. -/
def withRegs (s : State) (l : List (Reg × Word)) : State := l.foldl (fun t p => t.setReg p.1 p.2) s

/-- The state with another interrupt table base. -/
def withTable (s : State) (ivt : Word) : State := { s with inputs := { s.inputs with interruptTable := ivt } }

/-- Some registers after one step. -/
def regsAfter (s : State) (rs : List Reg) : Option (List Word) :=
  match step s with
  | .next t => some (rs.map t.reg)
  | .fault _ | .refused _ => none

/-- The n bytes at `a` after one step. -/
def bytesAfter (s : State) (a n : Nat) : Option (List Byte) :=
  match step s with
  | .next t => some ((List.range n).map (fun k => t.mem.read (a + k)))
  | .fault _ | .refused _ => none

/-- The run state after one step. -/
def runAfter (s : State) : Option RunState :=
  match step s with
  | .next t => some t.run
  | .fault _ | .refused _ => none

/-- The flag after one step. -/
def flagsAfter (s : State) : Option Comparison :=
  match step s with
  | .next t => some t.flags
  | .fault _ | .refused _ => none

/-- One step raises `e` and changes nothing else. -/
def Raises (s : State) (e : CpuError) : Bool :=
  match step s with
  | .next t => t == s.raise e
  | .fault _ | .refused _ => false

/-! ## Decoding: words written out from the spec's encodings (R83, R84; vectors 2.1) -/

/-- The instruction read from a byte string that must hold exactly one. -/
def decoded (bs : List Byte) : Option Instr :=
  match decodeBytes bs with
  | .ok (i, []) => some i
  | .ok (_, _ :: _) | .error _ => none

theorem test_decode_mov_register :
    decoded [0x00, 0x0A, 0x00] = some (.movRegReg .r8 .ip) ∧
    decoded [0x01, 0x03, 0xFF] = some (.movRegU8 .r1 255) ∧
    decoded [0x02, 0x03, 0x00, 0x80] = some (.movRegU16 .r1 0x8000) ∧
    decoded [0x03, 0x03, 0x01, 0x00, 0x00, 0x80] = some (.movRegU32 .r1 0x80000001) := by decide

theorem test_decode_mov_memory :
    decoded [0x04, 0x05, 0x04, 0x03, 0x02, 0x01] = some (.movRegMem .r3 0x01020304) ∧
    decoded [0x05, 0x04, 0x03, 0x02, 0x01, 0x0A] = some (.movMemReg 0x01020304 .r8) ∧
    decoded [0x06, 0x00, 0x00, 0x00, 0x00, 0x00] = some (.movMemU8 0 0) ∧
    decoded [0x07, 0x40, 0x00, 0x00, 0x00, 0x34, 0x12] = some (.movMemU16 0x40 0x1234) ∧
    decoded [0x08, 0x10, 0x00, 0x00, 0x00, 0xFF, 0xFF, 0xFF, 0xFF] = some (.movMemU32 0x10 0xFFFFFFFF) := by decide

theorem test_decode_add :
    decoded [0x09, 0x04, 0x03] = some (.addRegReg .r2 .r1) ∧
    decoded [0x0A, 0x07, 0x01] = some (.addRegU8 .r5 1) ∧
    decoded [0x0B, 0x03, 0x00, 0x01] = some (.addRegU16 .r1 0x0100) ∧
    decoded [0x0C, 0x01, 0xFC, 0xFF, 0xFF, 0xFF] = some (.addRegU32 .sp 0xFFFFFFFC) ∧
    decoded [0x0D, 0x03, 0x40, 0x00, 0x00, 0x00] = some (.addRegMem .r1 0x40) ∧
    decoded [0x0E, 0x40, 0x00, 0x00, 0x00, 0x03] = some (.addMemReg 0x40 .r1) ∧
    decoded [0x0F, 0x00] = some (.incReg .ip) ∧
    decoded [0x10, 0x40, 0x00, 0x00, 0x00] = some (.incMem 0x40) := by decide

theorem test_decode_stack :
    decoded [0x11, 0x03] = some (.pushReg .r1) ∧
    decoded [0x12, 0x40, 0x00, 0x00, 0x00] = some (.pushMem 0x40) ∧
    decoded [0x13, 0xFF] = some (.pushU8 0xFF) ∧
    decoded [0x14, 0x34, 0x12] = some (.pushU16 0x1234) ∧
    decoded [0x15, 0x78, 0x56, 0x34, 0x12] = some (.pushU32 0x12345678) ∧
    decoded [0x16, 0x0A] = some (.popReg .r8) := by decide

theorem test_decode_compare :
    decoded [0x17, 0x03, 0x05] = some (.cmpReg .r1 .r3) ∧
    decoded [0x18, 0x00, 0xFF] = some (.cmpU8 0 255) ∧
    decoded [0x19, 0x00, 0x01, 0xFF, 0x00] = some (.cmpU16 0x0100 0x00FF) ∧
    decoded [0x1A, 0xFF, 0xFF, 0xFF, 0xFF, 0x00, 0x00, 0x00, 0x00] = some (.cmpU32 0xFFFFFFFF 0) := by decide

theorem test_decode_jump :
    decoded [0x1B, 0x09, 0x00, 0x00, 0x00] = some (.jump 9) ∧
    decoded [0x1C, 0x20, 0x00, 0x00, 0x00] = some (.jumpGe 0x20) ∧
    decoded [0x1D, 0x20, 0x00, 0x00, 0x00] = some (.jumpGte 0x20) ∧
    decoded [0x1E, 0x09, 0x00, 0x00, 0x00] = some (.jumpLt 9) ∧
    decoded [0x1F, 0x09, 0x00, 0x00, 0x00] = some (.jumpLte 9) ∧
    decoded [0x20, 0xFF, 0xFF, 0xFF, 0xFF] = some (.call 0xFFFFFFFF) := by decide

theorem test_decode_load_store :
    decoded [0x21, 0x0A, 0xFF, 0xFF, 0xFF, 0xFF] = some (.load .r8 0xFFFFFFFF) ∧
    decoded [0x22, 0x02, 0x00, 0x00, 0x00, 0x00] = some (.storeReg .fp 0) ∧
    decoded [0x23, 0x05, 0x00, 0x00, 0x00, 0x0A] = some (.storeU8 5 10) ∧
    decoded [0x24, 0x10, 0x00, 0x00, 0x00, 0xFF, 0xFF] = some (.storeU16 0x10 0xFFFF) ∧
    decoded [0x25, 0x40, 0x00, 0x00, 0x00, 0xEF, 0xBE, 0xAD, 0xDE] = some (.storeU32 0x40 0xDEADBEEF) := by decide

theorem test_decode_system :
    decoded [0x26, 0xFF] = some (.interrupt 255) ∧
    decoded [0x27, 0x03] = some (.interruptReg .r1) ∧
    decoded [0x28] = some .halt ∧
    decoded [0x29] = some .ret := by decide

/-- A table word: `MovRegU16 R2, 0x1234` is bytes 02 04 34 12 (R113's example), the first byte in bits 7..0. -/
theorem test_decode_table_word :
    decodeTableWord 32 0x12340402 = some (.movRegU16 .r2 0x1234) ∧
    decodeTableWord 8 0x28 = some .halt ∧
    decodeTableWord 8 0x2A = none := by decide

/-- The lengths of R84, column L. -/
theorem test_lengths :
    Opcode.all.map Opcode.length =
      [3, 3, 4, 6, 6, 6, 6, 7, 9, 3, 3, 4, 6, 6, 6, 2, 5, 2, 5, 2, 3, 5, 2, 3, 3, 5, 9, 5, 5, 5, 5, 5, 5, 6, 6, 6, 7, 9,
        2, 2, 1, 1] := by decide

/-- The opcode bytes are 0x00 .. 0x29 in the order of the list (R84). -/
theorem test_opcode_bytes : Opcode.all.map Opcode.toByte = (List.range 42).map (BitVec.ofNat 8) := by decide

/-! ## The checks of WellFormed refuse an ill-formed byte string each -/

theorem test_wellFormed_refuses_unknown_opcode : wellFormedBytes [0x2A, 0x00] = false := by decide
theorem test_wellFormed_refuses_empty : wellFormedBytes [] = false := by decide
theorem test_wellFormed_refuses_short : wellFormedBytes [0x01, 0x03] = false := by decide
theorem test_wellFormed_refuses_long : wellFormedBytes [0x28, 0x00] = false := by decide
theorem test_wellFormed_refuses_register : wellFormedBytes [0x00, 0x03, 0x0B] = false := by decide
theorem test_wellFormed_accepts : wellFormedBytes [0x05, 0x40, 0x00, 0x00, 0x00, 0x04] = true := by decide

/-! ## Fetch and decode errors (V-F1 to V-F12) -/

theorem test_fetch_unknown_opcode : Raises (boot 64 0 64 [(0, [0x2A])]) (.invalidOpCode 0x2A) = true := by decide
theorem test_fetch_opcode_outside :
    Raises (withRegs (boot 64 0 64 []) [(.ip, 64)]) (.invalidAddress 0x40) = true := by decide
theorem test_fetch_window_outside :
    Raises (withRegs (boot 64 0 64 [(62, [0x01, 0x03])]) [(.ip, 62)]) (.invalidAddress 0x40) = true := by decide
theorem test_fetch_opcode_before_window :
    Raises (withRegs (boot 64 0 64 [(63, [0x2A])]) [(.ip, 63)]) (.invalidOpCode 0x2A) = true := by decide
theorem test_decode_lower_register_first :
    Raises (boot 64 0 64 [(0, [0x00, 0x0C, 0x0B])]) (.invalidRegister 0x0C) = true := by decide
/-- V-F10. -/
theorem test_advance_overflow :
    Raises (withRegs (boot (2 ^ 32) 0 64 [(0xFFFFFFFE, [0x0F, 0x03])]) [(.ip, 0xFFFFFFFE)]) .stackOverflow = true := by
  decide

/-! ## Mov -/

/-- R111's example. -/
theorem test_movRegReg :
    regsAfter (withRegs (boot 64 0 64 [(0, [0x00, 0x04, 0x03])]) [(.r1, 7)]) [.r2, .ip] = some [7, 3] := by decide
/-- V-M2. -/
theorem test_movRegReg_to_ip :
    regsAfter (withRegs (boot 64 0 64 [(0, [0x00, 0x00, 0x03])]) [(.r1, 0x20)]) [.ip] = some [0x20] := by decide
/-- R112's example. -/
theorem test_movRegU8 : regsAfter (boot 64 0 64 [(0, [0x01, 0x03, 0x0A])]) [.r1, .ip] = some [10, 3] := by decide
/-- V-M4: the upper half is cleared. -/
theorem test_movRegU16 :
    regsAfter (withRegs (boot 64 0 64 [(0, [0x02, 0x03, 0x34, 0x12])]) [(.r1, 0xFFFFFFFF)]) [.r1, .ip] =
      some [0x1234, 4] := by decide
/-- V-M5. -/
theorem test_movRegU32 :
    regsAfter (boot 64 0 64 [(0, [0x03, 0x0A, 0x78, 0x56, 0x34, 0x12])]) [.r8, .ip] = some [0x12345678, 6] := by decide
/-- V-M6. -/
theorem test_movRegMem :
    regsAfter (boot 64 0 64 [(0, [0x04, 0x03, 0x20]), (0x20, [0x78, 0x56, 0x34, 0x12])]) [.r1, .ip] =
      some [0x12345678, 6] := by decide
/-- V-M16: the last byte address reaches 2^32. -/
theorem test_movRegMem_past_the_top :
    Raises (boot (2 ^ 32) 0x80000000 64 [(0x80000000, [0x04, 0x03, 0xFD, 0xFF, 0xFF, 0x7F])]) .stackOverflow = true := by
  decide
/-- V-M7. -/
theorem test_movMemReg :
    bytesAfter (withRegs (boot 64 0 64 [(0, [0x05, 0x20, 0, 0, 0, 0x03])]) [(.r1, 0x12345678)]) 0x20 4 =
      some [0x78, 0x56, 0x34, 0x12] := by decide
/-- V-M8: one byte changes. -/
theorem test_movMemU8 :
    bytesAfter (boot 64 0 64 [(0, [0x06, 0x20, 0, 0, 0, 0xAB]), (0x20, [0x11, 0x22, 0x33, 0x44])]) 0x20 4 =
      some [0xAB, 0x22, 0x33, 0x44] := by decide
/-- V-M9. -/
theorem test_movMemU16 :
    bytesAfter (boot 64 0 64 [(0, [0x07, 0x20, 0, 0, 0, 0xCD, 0xAB]), (0x20, [0x11, 0x22, 0x33, 0x44])]) 0x20 4 =
      some [0xCD, 0xAB, 0x33, 0x44] := by decide
/-- V-M13: no partial write. -/
theorem test_movMemU16_straddles :
    Raises (boot 64 0 64 [(0, [0x07, 0x3F, 0, 0, 0, 0xCD, 0xAB])]) (.invalidAddress 0x40) = true := by decide
/-- V-M10. -/
theorem test_movMemU32 :
    bytesAfter (boot 64 0 64 [(0, [0x08, 0x20, 0, 0, 0, 0x78, 0x56, 0x34, 0x12])]) 0x20 4 =
      some [0x78, 0x56, 0x34, 0x12] := by decide

/-! ## Add and Inc -/

/-- V-A1. -/
theorem test_addRegReg_wraps :
    regsAfter (withRegs (boot 64 0 64 [(0, [0x09, 0x03, 0x03])]) [(.r1, 0x80000001)]) [.r1, .ip] = some [2, 3] := by decide
/-- V-A2: 0xFF is +255. -/
theorem test_addRegU8_wraps :
    regsAfter (withRegs (boot 64 0 64 [(0, [0x0A, 0x03, 0xFF])]) [(.r1, 0xFFFFFF01)]) [.r1, .ip] = some [0, 3] := by decide
/-- V-A5: a relative jump. -/
theorem test_addRegU8_to_ip :
    regsAfter (withRegs (boot 64 0 64 [(0x10, [0x0A, 0x00, 0x05])]) [(.ip, 0x10)]) [.ip] = some [0x15] := by decide
/-- V-A3. -/
theorem test_addRegU16 :
    regsAfter (withRegs (boot 64 0 64 [(0, [0x0B, 0x03, 0xFF, 0xFF])]) [(.r1, 1)]) [.r1, .ip] = some [0x10000, 4] := by
  decide
/-- V-A4. -/
theorem test_addRegU32_lowers_sp :
    regsAfter (boot 64 0 64 [(0, [0x0C, 0x01, 0xFC, 0xFF, 0xFF, 0xFF])]) [.sp, .ip] = some [0x3C, 6] := by decide
/-- V-A6. -/
theorem test_addRegMem :
    regsAfter (withRegs (boot 64 0 64 [(0, [0x0D, 0x03, 0x20]), (0x20, [2])]) [(.r1, 0xFFFFFFFF)]) [.r1, .ip] =
      some [1, 6] := by decide
/-- V-A7. -/
theorem test_addMemReg :
    bytesAfter (withRegs (boot 64 0 64 [(0, [0x0E, 0x20, 0, 0, 0, 0x03]), (0x20, [0xFE, 0xFF, 0xFF, 0xFF])]) [(.r1, 5)])
      0x20 4 = some [3, 0, 0, 0] := by decide
/-- V-A8. -/
theorem test_incReg_wraps :
    regsAfter (withRegs (boot 64 0 64 [(0, [0x0F, 0x03])]) [(.r1, 0xFFFFFFFF)]) [.r1, .ip] = some [0, 2] := by decide
/-- V-A9. -/
theorem test_incReg_ip :
    regsAfter (withRegs (boot 64 0 64 [(4, [0x0F, 0x00])]) [(.ip, 4)]) [.ip] = some [5] := by decide
/-- V-A10. -/
theorem test_incMem :
    bytesAfter (boot 64 0 64 [(0, [0x10, 0x20]), (0x20, [0xFF, 0xFF, 0xFF, 0xFF])]) 0x20 4 = some [0, 0, 0, 0] := by decide
/-- V-A11. -/
theorem test_incMem_straddles :
    Raises (boot 64 0 64 [(0, [0x10, 0x3E]), (0x3E, [0xFF, 0xFF])]) (.invalidAddress 0x40) = true := by decide

/-! ## Push and Pop -/

/-- V-S3: the old SP is pushed. -/
theorem test_pushReg_sp :
    bytesAfter (boot 128 0 128 [(0, [0x11, 0x01])]) 0x7C 4 = some [0, 0, 0, 0x80] := by decide
/-- S1, step 2. -/
theorem test_pushReg :
    regsAfter (withRegs (boot 64 0 64 [(3, [0x11, 0x03])]) [(.ip, 3), (.r1, 10)]) [.sp, .ip] = some [60, 5] := by decide
/-- V-S15. -/
theorem test_pushMem_reverses :
    bytesAfter (boot 128 0 128 [(0, [0x12, 0x40]), (0x40, [0x78, 0x56, 0x34, 0x12])]) 0x7C 4 =
      some [0x12, 0x34, 0x56, 0x78] := by decide
/-- V-S2. -/
theorem test_pushU8 : bytesAfter (boot 128 0 128 [(0, [0x13, 0xFF])]) 0x7C 4 = some [0, 0, 0, 0xFF] := by decide
/-- V-S10: no saturation. -/
theorem test_pushU8_no_room :
    Raises (boot 128 0x10 3 [(0x10, [0x13, 0x01])]) .stackUnderflow = true := by decide
/-- V-S13 with PushU16. -/
theorem test_pushU16_outside :
    Raises (boot 128 0 130 [(0, [0x14, 0x01, 0x00])]) (.invalidAddress 0x81) = true := by decide
/-- R155's example. -/
theorem test_pushU16 :
    bytesAfter (boot 128 0 128 [(0, [0x14, 0x34, 0x12])]) 0x7C 4 = some [0, 0, 0x12, 0x34] := by decide
/-- V-S1. -/
theorem test_pushU32 :
    bytesAfter (boot 128 0 128 [(0, [0x15, 0x78, 0x56, 0x34, 0x12])]) 0x7C 4 = some [0x12, 0x34, 0x56, 0x78] := by decide
/-- V-S5. -/
theorem test_popReg :
    regsAfter (withRegs (boot 128 0 128 [(0, [0x16, 0x04]), (0x7C, [0x12, 0x34, 0x56, 0x78])]) [(.sp, 0x7C)])
      [.r2, .sp, .ip] = some [0x12345678, 0x80, 2] := by decide
/-- V-S6: SP ends with the popped word. -/
theorem test_popReg_sp :
    regsAfter (withRegs (boot 128 0 128 [(0, [0x16, 0x01]), (0x7C, [0, 0, 0, 0x10])]) [(.sp, 0x7C)]) [.sp, .ip] =
      some [0x10, 2] := by decide

/-! ## Compare and jump -/

/-- V-C1: unsigned. -/
theorem test_cmpReg :
    flagsAfter (withRegs (boot 64 0 64 [(0, [0x17, 0x03, 0x04])]) [(.r1, 0xFFFFFFFF)]) = some .gt := by decide
/-- V-C6: IP as a source. -/
theorem test_cmpReg_ip :
    flagsAfter (withRegs (boot 64 0 64 [(8, [0x17, 0x00, 0x03])]) [(.ip, 8), (.r1, 8)]) = some .eq := by decide
/-- V-C3. -/
theorem test_cmpU8 : flagsAfter (boot 64 0 64 [(0, [0x18, 0x00, 0xFF])]) = some .lt := by decide
/-- V-C4. -/
theorem test_cmpU16 : flagsAfter (boot 64 0 64 [(0, [0x19, 0x00, 0x01, 0xFF, 0x00])]) = some .gt := by decide
/-- V-C5. -/
theorem test_cmpU32 :
    flagsAfter (boot 64 0 64 [(0, [0x1A, 0, 0, 0, 0x80, 0xFF, 0xFF, 0xFF, 0x7F])]) = some .gt := by decide
/-- V-J1. -/
theorem test_jump : regsAfter (boot 0x200 0x100 0x200 [(0x100, [0x1B, 0x09])]) [.ip] = some [0x109] := by decide
/-- V-J2. -/
theorem test_jump_overflow :
    Raises (boot (2 ^ 32) 0x80000000 64 [(0x80000000, [0x1B, 0, 0, 0, 0x80])]) .stackOverflow = true := by decide

/-- The machine of S6: a conditional jump to 0x20 at IP = 4 with the given flag. -/
def jumpCell (op : Byte) (f : Comparison) : State :=
  { withRegs (boot 64 0 64 [(4, [op, 0x20])]) [(.ip, 4)] with flags := f }

/-- S6, column JumpGe. -/
theorem test_jumpGe_table :
    Comparison.all.map (fun f => regsAfter (jumpCell 0x1C f) [.ip]) =
      [some [9], some [9], some [9], some [9], some [0x20], some [9]] := by decide
/-- S6, column JumpGte. -/
theorem test_jumpGte_table :
    Comparison.all.map (fun f => regsAfter (jumpCell 0x1D f) [.ip]) =
      [some [9], some [9], some [9], some [9], some [0x20], some [0x20]] := by decide
/-- S6, column JumpLt. -/
theorem test_jumpLt_table :
    Comparison.all.map (fun f => regsAfter (jumpCell 0x1E f) [.ip]) =
      [some [9], some [9], some [0x20], some [9], some [9], some [9]] := by decide
/-- S6, column JumpLte. -/
theorem test_jumpLte_table :
    Comparison.all.map (fun f => regsAfter (jumpCell 0x1F f) [.ip]) =
      [some [9], some [9], some [0x20], some [0x20], some [9], some [9]] := by decide
/-- V-J3: a jump not taken computes no target. -/
theorem test_jumpGe_not_taken_no_error :
    regsAfter (boot (2 ^ 32) 0x80000000 64 [(0x80000000, [0x1C, 0, 0, 0, 0x80])]) [.ip] = some [0x80000005] := by decide

/-! ## Call and Ret -/

/-- The machine of V-K1. -/
def callState : State :=
  withRegs (boot 128 0 128 [(3, [0x20, 0x0F])])
    [(.ip, 3), (.r1, 0x11111111), (.r2, 0x22222222), (.r3, 0x33333333), (.r4, 0x44444444)]

/-- V-K1, the frame. -/
theorem test_call_frame :
    bytesAfter callState 0x68 24 =
      some [0, 0, 0, 0x18, 0, 0, 0, 8, 0x44, 0x44, 0x44, 0x44, 0x33, 0x33, 0x33, 0x33, 0x22, 0x22, 0x22, 0x22,
        0x11, 0x11, 0x11, 0x11] := by decide
/-- V-K1, the registers. -/
theorem test_call_registers :
    regsAfter callState [.sp, .fp, .ip, .r1, .r4] = some [0x68, 0x68, 0x0F, 0x11111111, 0x44444444] := by decide

/-- The machine of V-K8, with the given frame-size byte. -/
def retState (size : Byte) : State :=
  withRegs (boot 128 0 128
      [(0x20, [0x29]), (0x68, [0, 0, 0, size, 0, 0, 0, 8, 0, 0, 0, 4, 0, 0, 0, 3, 0, 0, 0, 2, 0, 0, 0, 1])])
    [(.ip, 0x20), (.sp, 0x50), (.fp, 0x68), (.r1, 99), (.r2, 98), (.r3, 97), (.r4, 96)]

/-- V-K8. -/
theorem test_ret :
    regsAfter (retState 0x18) [.r1, .r2, .r3, .r4, .ip, .sp, .fp] = some [1, 2, 3, 4, 8, 0x80, 0x80] := by decide
/-- V-K9: the popped size is added to FP. -/
theorem test_ret_popped_size : regsAfter (retState 0x20) [.ip, .sp, .fp] = some [8, 0x80, 0x88] := by decide

/-! ## Load and Store -/

/-- V-L1. -/
theorem test_load :
    regsAfter (boot 64 0 64 [(0, [0x21, 0x05, 0x20]), (0x20, [0xEF, 0xBE, 0xAD, 0xDE])]) [.r3, .ip] =
      some [0xDEADBEEF, 6] := by decide
/-- V-L7. -/
theorem test_load_ip :
    regsAfter (boot 64 0 64 [(0, [0x21, 0x00, 0x20]), (0x20, [0x30])]) [.ip] = some [0x30] := by decide
/-- V-L6: program-relative. -/
theorem test_storeReg_relative :
    bytesAfter (withRegs (boot 0x200 0x100 0x200 [(0x100, [0x22, 0x03, 0x0A])]) [(.r1, 9)]) 0x10A 4 =
      some [9, 0, 0, 0] := by decide
/-- V-L8. -/
theorem test_storeReg_straddles :
    Raises (withRegs (boot 64 0 64 [(0, [0x22, 0x03, 0x3D])]) [(.r1, 0xFFFFFFFF)]) (.invalidAddress 0x40) = true := by
  decide
/-- V-L3. -/
theorem test_storeU8 :
    bytesAfter (boot 64 0 64 [(0, [0x23, 0x21, 0, 0, 0, 0x7F]), (0x20, [0x11, 0x22, 0x33, 0x44])]) 0x20 4 =
      some [0x11, 0x7F, 0x33, 0x44] := by decide
/-- V-L4. -/
theorem test_storeU16 :
    bytesAfter (boot 64 0 64 [(0, [0x24, 0x22, 0, 0, 0, 0x34, 0x12]), (0x20, [0x11, 0x22, 0x33, 0x44])]) 0x20 4 =
      some [0x11, 0x22, 0x34, 0x12] := by decide
/-- V-L5. -/
theorem test_storeU32 :
    bytesAfter (boot 64 0 64 [(0, [0x25, 0x20, 0, 0, 0, 0x78, 0x56, 0x34, 0x12])]) 0x20 4 =
      some [0x78, 0x56, 0x34, 0x12] := by decide

/-! ## Interrupt, InterruptReg, Halt -/

/-- The machine of V-I1. -/
def interruptState : State :=
  withRegs (boot 128 0 128 [(0x10, [0x26, 0x03]), (0x4C, [0x30])]) [(.ip, 0x10), (.r1, 0xAA)]

/-- V-I1, the frame. -/
theorem test_interrupt_frame :
    bytesAfter interruptState 0x68 24 =
      some [0, 0, 0, 0x18, 0, 0, 0, 0x12, 0, 0, 0, 0, 0, 0, 0, 0, 0, 0, 0, 0, 0, 0, 0, 0xAA] := by decide
/-- V-I2: nested, only IP changes. -/
theorem test_interrupt_nested :
    (match step { withRegs interruptState [(.sp, 100)] with inInt := true } with
      | .next t => t == { withRegs interruptState [(.sp, 100), (.ip, 0x30)] with inInt := true }
      | .fault _ | .refused _ => false) = true := by decide
/-- V-I9: the index is SP before the frame. -/
theorem test_interruptReg_sp :
    regsAfter (withTable (boot 1024 0 128 [(0, [0x27, 0x01]), (0x200, [0x20])]) 0) [.sp, .fp, .ip] =
      some [0x68, 0x68, 0x20] := by decide
/-- V-I8: the entry address is not taken modulo 2^32. -/
theorem test_interruptReg_overflow :
    Raises (withRegs (boot 128 0 128 [(0, [0x27, 0x03])]) [(.r1, 0x40000000)]) .stackOverflow = true := by decide
/-- V-H2: Halt makes no IP + L check. -/
theorem test_halt_at_top :
    runAfter (withRegs (boot (2 ^ 32) 0 64 [(0xFFFFFFFF, [0x28])]) [(.ip, 0xFFFFFFFF)]) = some .halted ∧
    regsAfter (withRegs (boot (2 ^ 32) 0 64 [(0xFFFFFFFF, [0x28])]) [(.ip, 0xFFFFFFFF)]) [.ip] = some [0xFFFFFFFF] := by
  decide
/-- V-H1, a later step: nothing changes. -/
theorem test_halted_stays :
    (match step { boot 64 0 64 [] with run := .halted } with
      | .next t => t == { boot 64 0 64 [] with run := .halted }
      | .fault _ | .refused _ => false) = true := by decide

/-! ## Placing an instruction for the next step -/

/-- From reset, `MovRegU8 R1, 10` placed at IP runs as the first instruction. -/
theorem test_withFetchWord :
    regsAfter (State.reset.withFetchWord 24 0x0A0301) [.r1, .ip] = some [10, 3] := by decide

/-! ## Witnesses: concrete states and operands that meet the hypotheses of the statements -/

open Sys2Proof.Claims

/-- The next state an outcome holds. -/
def nextOf (o : Host.Outcome State Fault Refusal) (s : State) : State :=
  match o with
  | .next t => t
  | .fault _ | .refused _ => s

/-- 64 bytes of memory, PS = 0, SP = 64, IP = 0, FP = 0, R1 = 0xAA, the interrupt table at 0x20 with entry 0 = 0x30. -/
def small : State := withRegs (withTable (boot 64 0 64 [(0x20, [0x30])]) 0x20#32) [(.r1, 0xAA#32)]

/-- `small` with IP at the last address from which `len` bytes can be advanced. -/
def lastAdvance (len : Nat) : State := withRegs small [(.ip, BitVec.ofNat 32 (2 ^ 32 - 1 - len))]

/-- `small` with IP one further: the advance reaches 2^32. -/
def pastAdvance (len : Nat) : State := withRegs small [(.ip, BitVec.ofNat 32 (2 ^ 32 - len))]

/-- A memory of 2^32 bytes, PS = 0, SP = 0xFFFFFFFC. -/
def large : State := boot (2 ^ 32) 0 0xFFFFFFFC []

/-- `small` with PS = 1. -/
def rebased : State := boot 64 1 64 []

/-- The bytes of an instruction of two bytes in the last two bytes of memory. -/
theorem witness_StepRunsTheInstructionAtIp :
    (withRegs (boot 64 0 64 [(62, [0x0F, 0x03])]) [(.ip, 62)]).run = .running ∧
    StandsAtIp (withRegs (boot 64 0 64 [(62, [0x0F, 0x03])]) [(.ip, 62)]) (.incReg .r1) :=
  ⟨by decide, ⟨by decide, by decide⟩, by decide⟩

theorem witness_FetchErrorsInOrder_opcode_outside :
    let s := withRegs small [(.ip, 64)]
    s.run = .running ∧ s.memSize ≤ (s.reg .ip).toNat := by decide
theorem witness_FetchErrorsInOrder_unknown_opcode :
    let s := withRegs (boot 64 0 64 [(63, [0x2A])]) [(.ip, 63)]
    s.run = .running ∧ (s.reg .ip).toNat < s.memSize ∧ 0x2A ≤ (s.mem.read (s.reg .ip).toNat).toNat := by decide
theorem witness_FetchErrorsInOrder_window :
    let s := withRegs (boot 64 0 64 [(63, [0x0F])]) [(.ip, 63)]
    (s.reg .ip).toNat < s.memSize ∧ s.mem.read (s.reg .ip).toNat = Opcode.incReg.toByte ∧
      AccessError s ((s.reg .ip).toNat + 1) (Opcode.incReg.length - 1) (.invalidAddress 64) :=
  ⟨by decide, by decide, 0, by decide, by decide, .inr (by decide)⟩
theorem witness_FetchErrorsInOrder_window_at_top :
    let s := withRegs (boot (2 ^ 32) 0 64 [(0xFFFFFFFF, [0x0F])]) [(.ip, 0xFFFFFFFF)]
    (s.reg .ip).toNat < s.memSize ∧ s.mem.read (s.reg .ip).toNat = Opcode.incReg.toByte ∧
      AccessError s ((s.reg .ip).toNat + 1) (Opcode.incReg.length - 1) .stackOverflow :=
  ⟨by decide, by decide, 0, by decide, by decide, .inl (by decide)⟩
/-- A bad second register byte after a good first one, the least and the greatest bad byte, and the register byte of a form
whose address comes first. -/
theorem witness_FetchErrorsInOrder_register :
    let s := withRegs (boot 64 0 64 [(61, [0x00, 0x0A, 0x0B])]) [(.ip, 61)]
    let both := withRegs (boot 64 0 64 [(61, [0x17, 0xFF, 0x0B])]) [(.ip, 61)]
    let far := withRegs (boot 64 0 64 [(58, [0x05, 0xFF, 0xFF, 0xFF, 0xFF, 0x0B])]) [(.ip, 58)]
    (s.mem.read (s.reg .ip).toNat = Opcode.movRegReg.toByte ∧ Claims.Exists s (s.reg .ip).toNat Opcode.movRegReg.length ∧
      1 ∈ registerOffsets Opcode.movRegReg.format.operands 0 ∧ 0x0B ≤ (s.mem.read ((s.reg .ip).toNat + 1 + 1)).toNat ∧
      ∀ j ∈ registerOffsets Opcode.movRegReg.format.operands 0, j < 1 →
        (s.mem.read ((s.reg .ip).toNat + 1 + j)).toNat < 0x0B) ∧
    (both.mem.read (both.reg .ip).toNat = Opcode.cmpReg.toByte ∧
      Claims.Exists both (both.reg .ip).toNat Opcode.cmpReg.length ∧
      0 ∈ registerOffsets Opcode.cmpReg.format.operands 0 ∧
      0x0B ≤ (both.mem.read ((both.reg .ip).toNat + 1 + 0)).toNat) ∧
    (far.mem.read (far.reg .ip).toNat = Opcode.movMemReg.toByte ∧
      Claims.Exists far (far.reg .ip).toNat Opcode.movMemReg.length ∧
      4 ∈ registerOffsets Opcode.movMemReg.format.operands 0 ∧
      0x0B ≤ (far.mem.read ((far.reg .ip).toNat + 1 + 4)).toNat ∧
      ∀ j ∈ registerOffsets Opcode.movMemReg.format.operands 0, ¬ j < 4) := by
  unfold Claims.Exists
  decide
/-- The greatest good register bytes. -/
theorem witness_FetchErrorsInOrder_no_error :
    let s := withRegs (boot 64 0 64 [(61, [0x09, 0x0A, 0x0A])]) [(.ip, 61)]
    s.mem.read (s.reg .ip).toNat = Opcode.addRegReg.toByte ∧ Claims.Exists s (s.reg .ip).toNat Opcode.addRegReg.length ∧
      ∀ k ∈ registerOffsets Opcode.addRegReg.format.operands 0,
        (s.mem.read ((s.reg .ip).toNat + 1 + k)).toNat < 0x0B := by
  unfold Claims.Exists
  decide

theorem witness_StoppedEngineStays :
    ({ small with run := .halted } : State).run ≠ .running ∧
    ({ small with run := .faulted (.invalidOpCode 0xFF) } : State).run ≠ .running := by decide

/-- A step that changes memory, from a state with the invariant. -/
theorem witness_StepKeepsLegal :
    (boot 64 0 64 [(0, [0x13, 0xFF])]).Legal ∧
    step (boot 64 0 64 [(0, [0x13, 0xFF])]) = .next (nextOf (step (boot 64 0 64 [(0, [0x13, 0xFF])])) small) :=
  ⟨⟨by decide, by decide, .inl (by decide), fun _ h => by cases h⟩, by rfl⟩

theorem witness_ResetIsLegal :
    (boot 1 0 1 [(0, [0x28])]).memSizeLegal ∧ (boot 1 0 1 [(0, [0x28])]).memLegal ∧
    (boot (2 ^ 32) 0 64 [(0xFFFFFFFF, [0x28])]).memSizeLegal ∧ (boot (2 ^ 32) 0 64 [(0xFFFFFFFF, [0x28])]).memLegal := by
  decide

theorem witness_StepKeepsInputs : step small = .next (nextOf (step small) small) := by rfl

/-- A step with in_int true; and an instruction that changes in_int. -/
theorem witness_InterruptGuardIsSticky :
    step { small with inInt := true } = .next (nextOf (step { small with inInt := true }) small) ∧
    exec (.interrupt 0) small = .next (nextOf (exec (.interrupt 0) small) small) ∧
    (nextOf (exec (.interrupt 0) small) small).inInt ≠ small.inInt :=
  ⟨by rfl, by rfl, by decide⟩

/-- An instruction that is no compare, and a compare. -/
theorem witness_OnlyComparesWriteFlags :
    exec (.pushReg .r1) small = .next (nextOf (exec (.pushReg .r1) small) small) ∧ isCompare (.pushReg .r1) = false ∧
    exec (.cmpU8 9 5) small = .next (nextOf (exec (.cmpU8 9 5) small) small) ∧
    (nextOf (exec (.cmpU8 9 5) small) small).flags ≠ small.flags :=
  ⟨by rfl, by rfl, by rfl, by decide⟩

/-- An instruction that raises. -/
theorem witness_ErrorsArePrecise :
    exec .ret large = .next (nextOf (exec .ret large) large) ∧
    exec (.popReg .r1) large = .next { large with run := .faulted .stackOverflow } := ⟨by rfl, by rfl⟩

theorem witness_HaltedOnlyByHalt :
    (boot 64 0 64 [(0, [0x28])]).run = .running ∧
    step (boot 64 0 64 [(0, [0x28])]) = .next { boot 64 0 64 [(0, [0x28])] with run := .halted } := ⟨by decide, by rfl⟩

/-- A register an instruction changes that is neither IP nor its destination. -/
theorem witness_RegistersWrittenAreTheListed :
    exec (.call 0) small = .next (nextOf (exec (.call 0) small) small) ∧
    (nextOf (exec (.call 0) small) small).reg .fp ≠ small.reg .fp := ⟨by rfl, by decide⟩

/-- The byte just below a stored one. -/
theorem witness_BytesWrittenAreTheListed :
    exec (.storeU8 63 0xFF) small = .next (nextOf (exec (.storeU8 63 0xFF) small) small) ∧
    ¬ ((writtenBytes small (.storeU8 63 0xFF)).1 ≤ 62 ∧
      62 < (writtenBytes small (.storeU8 63 0xFF)).1 + (writtenBytes small (.storeU8 63 0xFF)).2) := ⟨by rfl, by decide⟩

/-- The last word of a small memory and of the whole address space. -/
theorem witness_MemWriteThenMemRead : Claims.Exists small 60 4 ∧ Claims.Exists large 0xFFFFFFFC 4 :=
  ⟨⟨by decide, by decide⟩, by decide, by decide⟩

/-- SP = 4, the least that has room, and IP as high as the two advances allow. -/
theorem witness_PushThenPopGivesBack :
    let s := withRegs (lastAdvance 7) [(.sp, 4)]
    CanPush s 4 ∧ (s.reg .ip).toNat + 7 < 2 ^ 32 ∧
      exec (.pushU32 0x12345678) s = .next (nextOf (exec (.pushU32 0x12345678) s) s) :=
  ⟨⟨by decide, by decide⟩, by decide, by rfl⟩

/-- A push with SP = 4, the least that has room, and a read of the word it leaves at address 0; a pop of the last word of a
small memory, with the last IP whose advance fits and with the destination IP where it does not. -/
theorem witness_StackWordsAreByteReversedData :
    let s := withRegs (lastAdvance 5) [(.sp, 4)]
    let r := nextOf (exec (.pushU32 0x12345678) (withRegs small [(.sp, 4)])) small
    let p := withRegs (lastAdvance 2) [(.sp, 60)]
    let q := withRegs (pastAdvance 2) [(.sp, 60)]
    (CanPush s 4 ∧ CanAdvance s 5) ∧
    (CanPush (withRegs small [(.sp, 4)]) 4 ∧ CanAdvance (withRegs small [(.sp, 4)]) 5 ∧ ea r 0 = (r.reg .sp).toNat ∧
      CanAdvance r 6) ∧
    (Claims.Exists p (p.reg .sp).toNat 4 ∧ (p.reg .sp).toNat + 4 < 2 ^ 32 ∧ CanAdvance p 2) ∧
    (Claims.Exists q (q.reg .sp).toNat 4 ∧ (q.reg .sp).toNat + 4 < 2 ^ 32 ∧ ¬ CanAdvance q 2) := by
  unfold Claims.Exists CanPush CanAdvance
  decide

/-- SP = 24, the least that has room; the callee changed R1. -/
theorem witness_CallThenRetRestores :
    let s := withRegs small [(.sp, 24)]
    let t := nextOf (exec (.call 48) s) s
    let u := withRegs t [(.r1, 1), (.sp, 0)]
    CanPush s 24 ∧ CanAdvance s 5 ∧ ea s 48 < 2 ^ 32 ∧ exec (.call 48) s = .next t ∧ u.memSize = s.memSize ∧
      u.reg .fp = s.reg .sp - 24#32 ∧
      ∀ a, (s.reg .sp).toNat - 24 ≤ a → a < (s.reg .sp).toNat → u.mem.read a = t.mem.read a := by
  refine ⟨⟨by decide, by decide⟩, ?_, by decide, by rfl, by decide, by decide, fun a _ _ => rfl⟩
  show ((withRegs small [(.sp, 24)]).reg .ip).toNat + 5 < 2 ^ 32
  decide

/-- A destination that is no IP with IP at the last address the advance allows; and IP as destination at the highest
address of all, where no advance fits.
For MovRegRegResult, MovRegImmediateResult, LoadWordResult, AddRegRegResult, AddRegImmediateResult, AddRegMemResult and
IncRegResult. -/
theorem witness_register_result :
    (Reg.r1 = .ip ∨ CanAdvance (lastAdvance 2) 2) ∧ (Reg.r1 = .ip ∨ CanAdvance (lastAdvance 3) 3) ∧
    (Reg.r1 = .ip ∨ CanAdvance (lastAdvance 4) 4) ∧ (Reg.r1 = .ip ∨ CanAdvance (lastAdvance 6) 6) ∧
    (Reg.ip = .ip ∨ CanAdvance (pastAdvance 1) 2) := by
  unfold CanAdvance
  decide

/-- The unknown register bytes start at 0x0B.
For MovRegRegResult, CmpRegResult and LowerBadRegisterByteIsReported. -/
theorem witness_register_bytes : 0x0B ≤ (0x0B : Byte).toNat ∧ 0x0B ≤ (0xFF : Byte).toNat := by decide

/-- The last word of memory, with IP at the last address the advance allows.
For LoadWordResult, StoreRegisterResult, StoreWideImmediateResult, AddRegMemResult, AddMemRegResult and IncMemResult. -/
theorem witness_word_result :
    Claims.Exists (lastAdvance 6) (ea (lastAdvance 6) 60) 4 ∧ CanAdvance (lastAdvance 6) 6 ∧
    Claims.Exists (lastAdvance 5) (ea (lastAdvance 5) 60) 4 ∧ CanAdvance (lastAdvance 5) 5 ∧
    Claims.Exists (lastAdvance 9) (ea (lastAdvance 9) 60) 4 ∧ CanAdvance (lastAdvance 9) 9 := by
  unfold CanAdvance Claims.Exists
  decide

/-- The last two bytes and the last byte of memory.
For StoreWideImmediateResult and StoreByteImmediateResult. -/
theorem witness_narrow_store_result :
    Claims.Exists (lastAdvance 7) (ea (lastAdvance 7) 62) 2 ∧ CanAdvance (lastAdvance 7) 7 ∧
    Claims.Exists (lastAdvance 6) (ea (lastAdvance 6) 63) 1 ∧ CanAdvance (lastAdvance 6) 6 := by
  unfold CanAdvance Claims.Exists
  decide

/-- Word accesses that fail at their last byte, at their first byte, past the last address and in the sum PS + addr.
For DataAccessErrors, StoreWideImmediateResult, AddRegMemResult, AddMemRegResult, IncMemResult and PushMemResult. -/
theorem witness_word_error :
    AccessError small (ea small 61) 4 (.invalidAddress 64) ∧ AccessError small (ea small 64) 4 (.invalidAddress 64) ∧
    AccessError large (ea large 0xFFFFFFFD) 4 .stackOverflow ∧
    AccessError rebased (ea rebased 0xFFFFFFFF) 4 .stackOverflow :=
  ⟨⟨3, by decide, by decide, .inr (by decide)⟩, ⟨0, by decide, by decide, .inr (by decide)⟩,
    ⟨3, by decide, by decide, .inl (by decide)⟩, ⟨0, by decide, by decide, .inl (by decide)⟩⟩

/-- The same for accesses of two bytes and of one.
For DataAccessErrors and StoreWideImmediateResult. -/
theorem witness_narrow_error :
    AccessError small (ea small 63) 2 (.invalidAddress 64) ∧ AccessError large (ea large 0xFFFFFFFF) 2 .stackOverflow ∧
    AccessError small (ea small 64) 1 (.invalidAddress 64) ∧
    AccessError rebased (ea rebased 0xFFFFFFFF) 1 .stackOverflow :=
  ⟨⟨1, by decide, by decide, .inr (by decide)⟩, ⟨1, by decide, by decide, .inl (by decide)⟩,
    ⟨0, by decide, by decide, .inr (by decide)⟩, ⟨0, by decide, by decide, .inl (by decide)⟩⟩

/-- The least and the greatest SP with room for one word.
For PushRegResult, PushImmediateResult and PushMemResult. -/
theorem witness_push_result :
    CanPush (withRegs (lastAdvance 2) [(.sp, 4)]) 4 ∧ CanAdvance (withRegs (lastAdvance 2) [(.sp, 4)]) 2 ∧
    CanPush (lastAdvance 3) 4 ∧ CanAdvance (lastAdvance 3) 3 ∧
    CanPush (lastAdvance 5) 4 ∧ CanAdvance (lastAdvance 5) 5 ∧ Claims.Exists (lastAdvance 5) (ea (lastAdvance 5) 60) 4 := by
  unfold CanPush CanAdvance Claims.Exists
  decide

/-- SP = 0, SP one above memory's end, and SP one short of room, for a word and for a frame.
For PushRegResult, PushImmediateResult, PushMemResult and CallErrorsInOrder. -/
theorem witness_push_error :
    PushError (withRegs small [(.sp, 0)]) 4 .stackUnderflow ∧ PushError (withRegs small [(.sp, 65)]) 4 (.invalidAddress 64) ∧
    PushError (withRegs small [(.sp, 3)]) 4 .stackUnderflow ∧ PushError (withRegs small [(.sp, 0)]) 24 .stackUnderflow ∧
    PushError (withRegs small [(.sp, 65)]) 24 (.invalidAddress 64) ∧
    PushError (withRegs small [(.sp, 23)]) 24 .stackUnderflow ∧ Claims.Exists (withRegs small [(.sp, 0)]) 60 4 :=
  ⟨.inl (by decide), .inr (.inl (by decide)), .inr (.inr (by decide)), .inl (by decide), .inr (.inl (by decide)),
    .inr (.inr (by decide)), by decide, by decide⟩

/-- A pop of the last word of memory; its errors at the last byte, and where SP + 4 is 2^32. -/
theorem witness_PopRegResult :
    let s := withRegs (lastAdvance 2) [(.sp, 60)]
    (Claims.Exists s (s.reg .sp).toNat 4 ∧ (s.reg .sp).toNat + 4 < 2 ^ 32 ∧ CanAdvance s 2) ∧
    AccessError (withRegs small [(.sp, 61)]) 61 4 (.invalidAddress 64) ∧
    (Claims.Exists large (large.reg .sp).toNat 4 ∧ 2 ^ 32 ≤ (large.reg .sp).toNat + 4) := by
  refine ⟨⟨⟨by decide, by decide⟩, by decide, ?_⟩, ⟨3, by decide, by decide, .inr (by decide)⟩,
    ⟨by decide, by decide⟩, by decide⟩
  unfold CanAdvance
  decide

/-- The advances of the compares.
For CmpRegResult and CmpImmediateResult. -/
theorem witness_compare_result :
    CanAdvance (lastAdvance 3) 3 ∧ CanAdvance (lastAdvance 5) 5 ∧ CanAdvance (lastAdvance 9) 9 := by
  unfold CanAdvance
  decide

/-- The highest target, a target of 2^32, and for each condition a flag that meets it and one that does not.
For JumpResult, ConditionalJumpResults and JumpPairsAgreeOnReachableFlags. -/
theorem witness_jumps :
    ea small 0xFFFFFFFF < 2 ^ 32 ∧ 2 ^ 32 ≤ ea rebased 0xFFFFFFFF ∧ CanAdvance (lastAdvance 5) 5 ∧
    ({ small with flags := .gt } : State).flags = .gt ∧ ¬ ({ small with flags := .gte } : State).flags = .gt ∧
    (({ small with flags := .gte } : State).flags = .gt ∨ ({ small with flags := .gte } : State).flags = .gte) ∧
    ¬ (small.flags = .gt ∨ small.flags = .gte) ∧
    ({ small with flags := .lt } : State).flags = .lt ∧ ¬ ({ small with flags := .lte } : State).flags = .lt ∧
    (({ small with flags := .lte } : State).flags = .lt ∨ ({ small with flags := .lte } : State).flags = .lte) ∧
    ¬ (small.flags = .lt ∨ small.flags = .lte) ∧ small.flagsLegal ∧ small.flags = .eq := by
  unfold CanAdvance
  decide

/-- SP = 24, IP at the last address the return address allows, and the highest target. -/
theorem witness_CallResult :
    let s := withRegs (lastAdvance 5) [(.sp, 24)]
    CanPush s 24 ∧ CanAdvance s 5 ∧ ea s 0xFFFFFFFF < 2 ^ 32 := by
  unfold CanPush CanAdvance
  decide
theorem witness_CallErrorsInOrder :
    (CanPush (pastAdvance 5) 24 ∧ ¬ CanAdvance (pastAdvance 5) 5) ∧
    (CanPush rebased 24 ∧ CanAdvance rebased 5 ∧ 2 ^ 32 ≤ ea rebased 0xFFFFFFFF) := by
  unfold CanPush CanAdvance
  decide

/-- The highest frame of a small memory, whose frame-size word is 24. -/
theorem witness_RetResult :
    let s := withRegs (boot 64 0 64 [(40, [0, 0, 0, 24])]) [(.fp, 40)]
    Claims.Exists s (s.reg .fp).toNat 24 ∧ (s.reg .fp).toNat + 24 < 2 ^ 32 ∧
      (s.reg .fp).toNat + (stackWordAt s.mem (s.reg .fp).toNat).toNat < 2 ^ 32 := by
  unfold Claims.Exists
  decide
/-- A frame that ends at the last address of the largest memory. -/
def highFrame : State := withRegs large [(.fp, 0xFFFFFFE8)]
/-- A frame whose frame-size word takes the new FP to 2^32. -/
def hugeFrame : State := withRegs (boot 64 0 64 [(40, [0xFF, 0xFF, 0xFF, 0xD8])]) [(.fp, 40)]
theorem witness_RetErrorsInOrder :
    AccessError (withRegs small [(.fp, 41)]) 41 24 (.invalidAddress 64) ∧
    (Claims.Exists highFrame (highFrame.reg .fp).toNat 24 ∧ 2 ^ 32 ≤ (highFrame.reg .fp).toNat + 24) ∧
    (Claims.Exists hugeFrame (hugeFrame.reg .fp).toNat 24 ∧ (hugeFrame.reg .fp).toNat + 24 < 2 ^ 32 ∧
      2 ^ 32 ≤ (hugeFrame.reg .fp).toNat + (stackWordAt hugeFrame.mem (hugeFrame.reg .fp).toNat).toNat) :=
  ⟨⟨23, by decide, by decide, .inr (by decide)⟩, ⟨⟨by decide, by decide⟩, by decide⟩, ⟨by decide, by decide⟩, by decide,
    by decide⟩

/-- The last table entry of a small memory, with in_int false and with in_int true.
For InterruptResultBothEntries and InterruptRegResultBothEntries. -/
theorem witness_InterruptResults :
    let s := withRegs (lastAdvance 2) [(.sp, 24), (.r2, 7)]
    Claims.Exists s (s.inputs.interruptTable.toNat + 4 * (7 : BitVec 8).toNat) 4 ∧
      Claims.Exists s (s.inputs.interruptTable.toNat + 4 * (s.reg .r2).toNat) 4 ∧
      s.inInt = false ∧ CanPush s 24 ∧ CanAdvance s 2 ∧ ({ s with inInt := true } : State).inInt = true := by
  unfold Claims.Exists CanPush CanAdvance
  decide

/-- Inside an interrupt, with an index whose entry address is past 2^32. -/
def nestedHuge : State := { withRegs small [(.r2, 0x40000000#32)] with inInt := true }

/-- The stops of an interrupt: no room for the frame, no return address, no table entry (in both entries, and an entry
address past 2^32). -/
theorem witness_InterruptErrorsInOrder :
    (small.inInt = false ∧ PushError (withRegs small [(.sp, 23)]) 24 .stackUnderflow) ∧
    (CanPush (pastAdvance 2) 24 ∧ ¬ CanAdvance (pastAdvance 2) 2) ∧
    (CanPush small 24 ∧ CanAdvance small 2 ∧
      AccessError small (small.inputs.interruptTable.toNat + 4 * (8 : BitVec 8).toNat) 4 (.invalidAddress 64)) ∧
    (nestedHuge.inInt = true ∧
      AccessError nestedHuge (nestedHuge.inputs.interruptTable.toNat + 4 * (nestedHuge.reg .r2).toNat) 4
        .stackOverflow) := by
  refine ⟨⟨by decide, .inr (.inr (by decide))⟩, ?_, ⟨⟨by decide, by decide⟩, ?_, 0, by decide, by decide, .inr (by decide)⟩,
    by decide, 0, by decide, by decide, .inl (by decide)⟩
  · unfold CanPush CanAdvance
    decide
  · unfold CanAdvance
    decide

theorem witness_LaterInterruptsSaveNothing :
    let s : State := { small with inInt := true }
    s.inInt = true ∧ exec (.interrupt 0) s = .next (nextOf (exec (.interrupt 0) s) s) ∧
      exec (.interruptReg .r2) s = .next (nextOf (exec (.interruptReg .r2) s) s) := ⟨by decide, by rfl, by rfl⟩

/-- A pop of the last word of memory by an instruction whose advance reaches 2^32. -/
def pastPop : State := withRegs (pastAdvance 2) [(.sp, 60)]

/-- The advances that reach 2^32, with the accesses and the room the clauses ask for. -/
theorem witness_AdvanceOverflowRaises :
    (∀ len ∈ [2, 3, 4, 5, 6, 7, 9], ¬ CanAdvance (pastAdvance len) len) ∧ Reg.r1 ≠ .ip ∧
    (¬ CanAdvance pastPop 2 ∧ Claims.Exists pastPop (pastPop.reg .sp).toNat 4 ∧ (pastPop.reg .sp).toNat + 4 < 2 ^ 32) ∧
    (∀ len ∈ [2, 3, 5], CanPush (pastAdvance len) 4) ∧
    Claims.Exists (pastAdvance 5) (ea (pastAdvance 5) 60) 4 ∧
    Claims.Exists (pastAdvance 6) (ea (pastAdvance 6) 60) 4 ∧ Claims.Exists (pastAdvance 6) (ea (pastAdvance 6) 63) 1 ∧
    Claims.Exists (pastAdvance 7) (ea (pastAdvance 7) 62) 2 ∧ Claims.Exists (pastAdvance 9) (ea (pastAdvance 9) 60) 4 ∧
    (pastAdvance 5).flags ≠ .gt ∧ (pastAdvance 5).flags ≠ .gte ∧ (pastAdvance 5).flags ≠ .lt ∧
    (pastAdvance 5).flags ≠ .lte := by
  unfold Claims.Exists CanPush CanAdvance
  decide

/-- The store writes the byte after itself, the last of memory; and the opcode of an instruction whose operand byte is the
last of memory. -/
theorem witness_FetchSeesStores :
    let s := withRegs small [(.ip, 57)]
    let u := withRegs (boot 64 0 64 [(63, [0x0A])]) [(.ip, 56)]
    (s.run = .running ∧ Claims.Exists s (ea s 63) 1 ∧ CanAdvance s 6 ∧ (s.reg .ip).toNat + 6 = ea s 63) ∧
    (u.run = .running ∧ Claims.Exists u (ea u 62) 1 ∧ CanAdvance u 6 ∧ (u.reg .ip).toNat + 6 = ea u 62 ∧
      encode (.incReg .r8) = 0x0F :: [0x0A] ∧ Claims.Exists u (ea u 62 + 1) 1 ∧ u.mem.read (ea u 62 + 1 + 0) = 0x0A) ∧
    0x2A ≤ (0x2A : Byte).toNat := by
  unfold Claims.Exists CanAdvance
  decide

theorem witness_DecodedBytesAreTheEncoding :
    decodeBytes [0x0F, 0x0A, 0xFF] = .ok (.incReg .r8, [0xFF]) := by decide

end Sys2Proof.Tests
end

section
/-!
PROOFS. The statements about the state after reset (spec/10_state.md R41, spec/70_reset_and_hazards.md R260).
-/

namespace Sys2Proof.Machine

/-- Reset clears the eight general registers (R41). -/
theorem applyReset_reg_general (i : ResetInputs) (f : Word) (s : State) {r : Reg}
    (h : r = .r1 ∨ r = .r2 ∨ r = .r3 ∨ r = .r4 ∨ r = .r5 ∨ r = .r6 ∨ r = .r7 ∨ r = .r8) :
    (applyReset i f s).reg r = 0 := by
  obtain rfl | rfl | rfl | rfl | rfl | rfl | rfl | rfl := h <;> rfl

/-- Settles O13: one law of reset per item of R41. Memory is the same list, so every byte reads as before. -/
theorem resetSetsEveryRegister : Obligations.ResetSetsEveryRegister := by
  intro i f s
  have hmem (a : Nat) : (applyReset i f s).mem.read a = s.mem.read a := by rw [applyReset_mem]
  exact ⟨applyReset_ip i f s, applyReset_sp i f s, applyReset_fp i f s, fun _ => applyReset_reg_general i f s,
    applyReset_flags i f s, applyReset_inInt i f s, applyReset_run i f s, applyReset_inputs i f s,
    applyReset_memSize i f s, hmem⟩

end Sys2Proof.Machine
end

section
/-!
PROOFS. The terms of the statements tied to the shared operations: immediates, unknown register bytes, and what an
instruction does that writes a destination register or stores bytes at PS + addr.
-/

namespace Sys2Proof.Machine

open Sys2Proof.Claims

/-! ## Immediates -/

/-- An immediate widens to the word with its number (R89). -/
theorem immediate_eq_ofNat (w : Nat) (imm : BitVec w) : immediate w imm = BitVec.ofNat 32 imm.toNat :=
  (BitVec.ofNat_toNat 32 imm).symm

/-- A 32-bit immediate is the word itself (R89). -/
theorem immediate_word (imm : BitVec 32) : immediate 32 imm = imm := BitVec.setWidth_eq imm

/-! ## Unknown register bytes (R87) -/

/-- The register bytes are those below 0x0B (R21). -/
theorem reg_toByte_lt (r : Reg) : r.toByte.toNat < 0x0B := by
  cases r <;> decide

/-- A byte from 0x0B on names no register (R87, R222). -/
theorem decodeReg_of_unknown {b : Byte} (h : 0x0B ≤ b.toNat) : decodeReg b = .error (.invalidRegister b) := by
  unfold decodeReg
  split
  · next r hr =>
    have hlt := reg_toByte_lt r
    rw [Reg.toByte_of_ofByte hr] at hlt
    omega
  · rfl

/-- A two-register opcode reads its two register bytes and refuses an unknown one (R87). -/
theorem eitherBadRegisterRaises_of_decodeWindow {op : Opcode} {mk : Reg → Reg → Instr}
    (hwin : ∀ b c, decodeWindow op [b, c] = (do
      let x ← decodeReg b
      let y ← decodeReg c
      return mk x y)) : EitherBadRegisterRaises op := by
  refine ⟨fun b r hb => ?_, fun r c hc => ?_, fun b c hb _ => ⟨b, .inl rfl, ?_⟩⟩
  · rw [hwin, decodeReg_of_unknown hb, error_bind]
  · rw [hwin, decodeReg_toByte, ok_bind, decodeReg_of_unknown hc, error_bind]
  · rw [hwin, decodeReg_of_unknown hb, error_bind]

/-! ## Outcomes -/

/-- An instruction whose operation answers `t` completes with what holds of `t`. -/
theorem completes_of_exec {i : Instr} {s t : State} {x : Except CpuError State} {P : State → Prop}
    (hexec : exec i s = finish s x) (hx : x = .ok t) (ht : P t) : Completes i s P :=
  ⟨t, by rw [hexec, hx, finish_ok], ht⟩

/-- An instruction whose operation raises leaves the faulted state and every byte of memory. -/
theorem fails_of_exec {i : Instr} {s : State} {x : Except CpuError State} {e : CpuError}
    (hexec : exec i s = finish s x) (hx : x = .error e) : Fails i s e (SameMemory s) :=
  ⟨s.raise e, by rw [hexec, hx, finish_error], State.raise_run s e, fun a => by rw [State.raise_mem]⟩

/-! ## A destination register (R96, R97) -/

/-- A destination can be written when it is IP or when the advance fits. -/
theorem writeDestination_of_fits {op : Opcode} {dst : Reg} (v : Word) {s : State}
    (h : dst = .ip ∨ CanAdvance s op.length) : ∃ t, writeDestination op dst v s = .ok t := by
  by_cases hip : dst = .ip
  · exact ⟨_, writeDestination_eq_ok.2 (.inl ⟨hip, rfl⟩)⟩
  · exact ⟨_, writeDestination_eq_ok.2 (.inr ⟨hip, h.resolve_left hip, rfl⟩)⟩

/-- A written destination holds the value, IP advances unless it is the destination, and nothing else changes. -/
theorem writesRegister_of_writeDestination {op : Opcode} {dst : Reg} {v : Word} {s t : State}
    (h : writeDestination op dst v s = .ok t) :
    WritesRegister s t dst v op.length ∧ SameControl s t ∧ SameMemory s t := by
  obtain ⟨rfl, rfl⟩ | ⟨hip, _, rfl⟩ := writeDestination_eq_ok.1 h
  · refine ⟨fun r => ?_, ⟨rfl, rfl, rfl, rfl, rfl⟩, fun _ => rfl⟩
    rw [State.reg_setReg]
    split <;> rfl
  · refine ⟨fun r => ?_, ⟨rfl, rfl, rfl, rfl, rfl⟩, fun _ => rfl⟩
    rw [State.reg_setReg, State.reg_setReg]
    by_cases hr : r = dst
    · subst hr
      rw [if_neg hip, if_pos rfl, if_pos rfl]
    · simp only [if_neg hr]

/-- An instruction that writes `v` to `dst` and finishes has the register result. -/
theorem registerResult_of_exec {i : Instr} {s : State} {op : Opcode} {dst : Reg} {v : Word}
    (hexec : exec i s = finish s (writeDestination op dst v s)) : RegisterResult i s dst v op.length := by
  intro hfits
  obtain ⟨t, ht⟩ := writeDestination_of_fits v hfits
  exact completes_of_exec hexec ht (writesRegister_of_writeDestination ht)

/-! ## Bytes stored at PS + addr (R54, R57) -/

/-- A store that answers has changed the n bytes at EA(addr) and IP, and nothing else. -/
theorem stores_of_storeAndAdvance {op : Opcode} {addr v : Word} {n : Nat} {s t : State} (hn : n ≠ 0)
    (h : storeAndAdvance op addr n v s = .ok t) :
    OnlyIp s t (s.reg .ip + BitVec.ofNat 32 op.length) ∧ SameControl s t ∧ Stores s t (ea s addr) n v := by
  obtain ⟨_, _, rfl⟩ := (storeAndAdvance_eq_ok hn).1 h
  refine ⟨fun r => ?_, ⟨rfl, rfl, rfl, rfl, rfl⟩, fun b => ?_⟩
  · exact State.reg_setReg _ .ip _ r
  · rw [State.setReg_mem]
    exact Memory.read_storeLE s.mem (ea s addr) v n b

/-- An instruction that stores n bytes at EA(addr) and advances has the store result. -/
theorem storeResult_of_exec {i : Instr} {s : State} {op : Opcode} {addr v : Word} {n : Nat} (hn : n ≠ 0)
    (hexec : exec i s = finish s (storeAndAdvance op addr n v s)) : StoreResult i s addr n v op.length := by
  intro hexists hadv
  have hok : storeAndAdvance op addr n v s = .ok _ := (storeAndAdvance_eq_ok hn).2 ⟨hexists, hadv, rfl⟩
  exact completes_of_exec hexec hok (stores_of_storeAndAdvance hn hok)

/-- The checks of an ascending access raise its access error: that of the first byte that does not exist (R53). -/
theorem checkUp_of_accessError {s : State} {a n : Nat} {e : CpuError} (h : AccessError s a n e) :
    checkUp s a n = .error e := by
  obtain ⟨k, hk, hbefore, hat⟩ := h
  have hprev : k = 0 ∨ a + k ≤ 2 ^ 32 ∧ a + k ≤ s.memSize := by
    rcases Nat.eq_zero_or_pos k with h0 | hpos
    · exact .inl h0
    · obtain ⟨htop, hin⟩ := hbefore (k - 1) (by omega)
      exact .inr (by omega)
  rcases hat with ⟨hout, rfl⟩ | ⟨htop, hout, rfl⟩
  · exact checkUp_overflow hk (hprev.imp_right And.right) (hprev.imp_right And.left) hout
  · exact checkUp_invalid hk (hprev.imp_right And.right) hout htop

/-- An access at EA(addr) raises its access error, whether the sum PS + addr or a byte of the access is the first thing
that fails (R53, R57). -/
theorem effectiveAddress_bind_of_accessError {α : Type} {s : State} {addr : Word} {n : Nat} {e : CpuError}
    {f : Nat → Except CpuError α} (h : AccessError s (ea s addr) n e)
    (hf : checkUp s (ea s addr) n = .error e → f (ea s addr) = .error e) :
    (effectiveAddress s addr >>= f) = .error e := by
  by_cases hea : ea s addr < 2 ^ 32
  · rw [effectiveAddress_eq_ok.2 ⟨hea, rfl⟩, ok_bind]
    exact hf (checkUp_of_accessError h)
  · obtain ⟨k, _, hbefore, hat⟩ := h
    have hfirst : k = 0 := by
      by_contra hne
      exact hea (hbefore 0 (by omega)).1
    subst hfirst
    obtain ⟨_, rfl⟩ | ⟨hlt, _⟩ := hat
    · rw [effectiveAddress_overflow (Nat.le_of_not_lt hea), error_bind]
    · exact absurd hlt hea

/-- A store at EA(addr) raises its access error before anything is written (R54). -/
theorem storeAndAdvance_of_accessError {s : State} {op : Opcode} {addr v : Word} {n : Nat} {e : CpuError}
    (h : AccessError s (ea s addr) n e) : storeAndAdvance op addr n v s = .error e := by
  have hstore : storeOperand s addr n v = .error e :=
    effectiveAddress_bind_of_accessError h (fun hcheck => by rw [memWrite, hcheck, error_bind])
  rw [storeAndAdvance, hstore, error_bind]

end Sys2Proof.Machine
end

section
/-!
PROOFS. The Mov family and the wide immediate stores (spec/40_mov.md R111 to R114, R118, R119; R203, R204).
-/

namespace Sys2Proof.Machine

open Sys2Proof.Claims

/-! ## The wide immediate stores and the value they store -/

theorem exec_movMemU16 (addr : Word) (imm : BitVec 16) (s : State) :
    exec (.movMemU16 addr imm) s =
      finish s (storeAndAdvance .movMemU16 addr 2 (BitVec.ofNat 32 imm.toNat) s) := by
  rw [← immediate_eq_ofNat]
  rfl

theorem exec_storeU16 (addr : Word) (imm : BitVec 16) (s : State) :
    exec (.storeU16 addr imm) s = finish s (storeAndAdvance .storeU16 addr 2 (BitVec.ofNat 32 imm.toNat) s) := by
  rw [← immediate_eq_ofNat]
  rfl

theorem exec_movMemU32 (addr : Word) (imm : BitVec 32) (s : State) :
    exec (.movMemU32 addr imm) s = finish s (storeAndAdvance .movMemU32 addr 4 imm s) := by
  conv_rhs => rw [← immediate_word imm]
  rfl

theorem exec_storeU32 (addr : Word) (imm : BitVec 32) (s : State) :
    exec (.storeU32 addr imm) s = finish s (storeAndAdvance .storeU32 addr 4 imm s) := by
  conv_rhs => rw [← immediate_word imm]
  rfl

/-! ## The obligations -/

/-- Settles O25: the write of a destination register, and the two register bytes of R87. -/
theorem movRegRegResult : Obligations.MovRegRegResult := by
  intro dst src s
  exact ⟨rfl, registerResult_of_exec (op := .movRegReg) rfl,
    eitherBadRegisterRaises_of_decodeWindow (mk := .movRegReg) (fun _ _ => rfl)⟩

/-- Settles O26: the write of a destination register, once for each width of the immediate. -/
theorem movRegImmediateResult : Obligations.MovRegImmediateResult := by
  intro dst s
  refine ⟨fun imm => ⟨rfl, ?_⟩, fun imm => ⟨rfl, ?_⟩, fun imm => ⟨rfl, ?_⟩⟩
  · rw [← immediate_eq_ofNat]
    exact registerResult_of_exec (op := .movRegU8) rfl
  · rw [← immediate_eq_ofNat]
    exact registerResult_of_exec (op := .movRegU16) rfl
  · have hresult := registerResult_of_exec (i := .movRegU32 dst imm) (s := s) (op := .movRegU32) rfl
    rwa [immediate_word] at hresult

/-- Settles O29: the store's result where its bytes exist, and the error of its first byte that does not. -/
theorem storeWideImmediateResult : Obligations.StoreWideImmediateResult := by
  intro addr s
  constructor
  · intro imm
    have hmov := exec_movMemU16 addr imm s
    have hstore := exec_storeU16 addr imm s
    exact ⟨rfl, rfl, storeResult_of_exec two_ne_zero hmov, storeResult_of_exec two_ne_zero hstore, fun e he =>
      ⟨fails_of_exec hmov (storeAndAdvance_of_accessError he),
        fails_of_exec hstore (storeAndAdvance_of_accessError he)⟩⟩
  · intro imm
    have hmov := exec_movMemU32 addr imm s
    have hstore := exec_storeU32 addr imm s
    exact ⟨rfl, rfl, storeResult_of_exec four_ne_zero hmov, storeResult_of_exec four_ne_zero hstore, fun e he =>
      ⟨fails_of_exec hmov (storeAndAdvance_of_accessError he),
        fails_of_exec hstore (storeAndAdvance_of_accessError he)⟩⟩

end Sys2Proof.Machine
end

section
/-!
PROOFS. The Add family and IncReg (spec/41_add_inc.md R130 to R137): sums modulo 2^32 into a register and into a word of
memory.
-/

namespace Sys2Proof.Machine

open Sys2Proof.Claims

/-! ## Sums of words (R130) -/

/-- The sum of two words has the sum of their numbers modulo 2^32. -/
theorem add_eq_ofNat_mod (a b : Word) : a + b = BitVec.ofNat 32 ((a.toNat + b.toNat) % 2 ^ 32) := by
  apply BitVec.eq_of_toNat_eq
  rw [BitVec.toNat_add, BitVec.toNat_ofNat, Nat.mod_mod]

/-- Widening keeps the number of an immediate that fits in a word (R89): no sign extension. -/
theorem toNat_immediate {w : Nat} (h : w ≤ 32) (imm : BitVec w) : (immediate w imm).toNat = imm.toNat :=
  BitVec.toNat_setWidth_of_le h

/-! ## The word at PS + addr (R53, R57) -/

/-- The four-byte value the machine reads is the word of the statements. -/
theorem ofNat_valueLE_four (m : Memory) (a : Nat) : BitVec.ofNat 32 (m.valueLE a 4) = wordAt m a := by
  rw [Memory.valueLE_four, wordAt]

/-- A memory operand whose four bytes exist is their word. -/
theorem loadOperand_of_exists {s : State} {addr : Word} (h : Exists s (ea s addr) 4) :
    loadOperand s addr = .ok (wordAt s.mem (ea s addr)) := by
  obtain ⟨htop, hsize⟩ := h
  rw [← ofNat_valueLE_four]
  exact loadOperand_eq_ok.2 ⟨htop, hsize, rfl⟩

/-- A read at EA(addr) raises its access error (R53). -/
theorem loadOperand_of_accessError {s : State} {addr : Word} {e : CpuError} (h : AccessError s (ea s addr) 4 e) :
    loadOperand s addr = .error e :=
  effectiveAddress_bind_of_accessError h (fun hcheck => by rw [memRead, hcheck, error_bind])

/-! ## The two sums: into a register and into memory -/

/-- An instruction that adds `v` to `dst` and finishes has the register result of the sum modulo 2^32. -/
theorem registerResult_of_addToDestination {i : Instr} {s : State} {op : Opcode} {dst : Reg} {v : Word}
    (hexec : exec i s = finish s (addToDestination op dst v s)) :
    RegisterResult i s dst (BitVec.ofNat 32 (((s.reg dst).toNat + v.toNat) % 2 ^ 32)) op.length := by
  rw [← add_eq_ofNat_mod]
  exact registerResult_of_exec hexec

/-- The same for an immediate, by its own number. -/
theorem registerResult_of_addImmediate {i : Instr} {s : State} {op : Opcode} {dst : Reg} {w : Nat} {imm : BitVec w}
    (hw : w ≤ 32) (hexec : exec i s = finish s (addToDestination op dst (immediate w imm) s)) :
    RegisterResult i s dst (BitVec.ofNat 32 (((s.reg dst).toNat + imm.toNat) % 2 ^ 32)) op.length := by
  rw [← toNat_immediate hw imm]
  exact registerResult_of_addToDestination hexec

/-- A sum in memory is a read of the operand followed by a store of the sum at the same address (R136, R138). -/
theorem addToMemory_eq_load_store (op : Opcode) (addr v : Word) (s : State) :
    addToMemory op addr v s = loadOperand s addr >>= fun m => storeAndAdvance op addr 4 (m + v) s := by
  unfold addToMemory loadOperand storeAndAdvance storeOperand
  cases effectiveAddress s addr with
  | error e => rfl
  | ok a => rfl

/-- An instruction that adds `v` to the word at EA(addr) and finishes has the store result of the sum modulo 2^32. -/
theorem storeResult_of_addToMemory {i : Instr} {s : State} {op : Opcode} {addr v : Word}
    (hexec : exec i s = finish s (addToMemory op addr v s)) :
    StoreResult i s addr 4 (BitVec.ofNat 32 (((wordAt s.mem (ea s addr)).toNat + v.toNat) % 2 ^ 32)) op.length := by
  intro hexists
  rw [addToMemory_eq_load_store, loadOperand_of_exists hexists, ok_bind] at hexec
  rw [← add_eq_ofNat_mod]
  exact storeResult_of_exec four_ne_zero hexec hexists

/-- A sum in memory raises the access error of its read, before anything is written (R136). -/
theorem addToMemory_of_accessError {s : State} {op : Opcode} {addr v : Word} {e : CpuError}
    (h : AccessError s (ea s addr) 4 e) : addToMemory op addr v s = .error e := by
  rw [addToMemory_eq_load_store, loadOperand_of_accessError h, error_bind]

/-! ## AddRegMem: the read, then the sum (R135) -/

theorem exec_addRegMem (dst : Reg) (addr : Word) (s : State) :
    exec (.addRegMem dst addr) s =
      finish s (loadOperand s addr >>= fun m => addToDestination .addRegMem dst m s) :=
  rfl

/-! ## The obligations -/

/-- Settles O33: the sum of both registers, read before the write. -/
theorem addRegRegResult : Obligations.AddRegRegResult := by
  intro dst src s
  exact ⟨rfl, registerResult_of_addToDestination (op := .addRegReg) rfl⟩

/-- Settles O34: the sum with the immediate, once for each width. -/
theorem addRegImmediateResult : Obligations.AddRegImmediateResult := by
  intro dst s
  refine ⟨fun imm => ⟨rfl, ?_⟩, fun imm => ⟨rfl, ?_⟩, fun imm => ⟨rfl, ?_⟩⟩
  · exact registerResult_of_addImmediate (op := .addRegU8) (by decide) rfl
  · exact registerResult_of_addImmediate (op := .addRegU16) (by decide) rfl
  · exact registerResult_of_addImmediate (op := .addRegU32) le_rfl rfl

/-- Settles O35: by whether the read answers the word at PS + addr or raises. -/
theorem addRegMemResult : Obligations.AddRegMemResult := by
  intro dst addr s
  have hexec := exec_addRegMem dst addr s
  refine ⟨rfl, fun hexists => ?_, fun e he => ?_⟩
  · rw [loadOperand_of_exists hexists, ok_bind] at hexec
    exact registerResult_of_addToDestination hexec
  · rw [loadOperand_of_accessError he, error_bind, finish_error] at hexec
    exact ⟨s.raise e, hexec, State.raise_run s e, State.raise_reg s e dst⟩

/-- Settles O36: the sum in memory where its four bytes exist, and the error of its first byte that does not. -/
theorem addMemRegResult : Obligations.AddMemRegResult := by
  intro addr src s
  have hexec : exec (.addMemReg addr src) s = finish s (addToMemory .addMemReg addr (s.reg src) s) := rfl
  exact ⟨rfl, storeResult_of_addToMemory hexec, fun e he => fails_of_exec hexec (addToMemory_of_accessError he)⟩

/-- Settles O37: the sum of the register with the word 1. -/
theorem incRegResult : Obligations.IncRegResult := by
  intro reg s
  exact ⟨rfl, registerResult_of_addToDestination (op := .incReg) (v := 1) rfl⟩

end Sys2Proof.Machine
end

section
/-!
PROOFS. The compares and the jumps (spec/43_cmp_jump.md R170 to R181): what each leaves of the state, and which of them
transfer.
-/

namespace Sys2Proof.Machine

open Sys2Proof.Claims

/-! ## A write of IP alone -/

/-- A state where only IP was written differs from the one before in nothing else. -/
theorem onlyIp_setReg_ip (s : State) (v : Word) :
    OnlyIp s (s.setReg .ip v) v ∧ SameControl s (s.setReg .ip v) ∧ SameMemory s (s.setReg .ip v) :=
  ⟨State.reg_setReg s .ip v, ⟨rfl, rfl, rfl, rfl, rfl⟩, fun _ => rfl⟩

/-! ## Compares (R170) -/

/-- The compare function of the model is the outcome the statements name. -/
theorem compareOutcome_eq_outcome (a b : Nat) : compareOutcome a b = outcome a b := rfl

/-- An instruction that compares `a` with `b` and finishes has the compare result. -/
theorem compareResult_of_exec {i : Instr} {s : State} {op : Opcode} {a b : Nat}
    (hexec : exec i s = finish s (compareAndAdvance op a b s)) : CompareResult i s a b op.length := by
  intro hadv
  refine completes_of_exec hexec (compareAndAdvance_eq_ok.2 ⟨hadv, rfl⟩) ?_
  obtain ⟨hip, _, hmem⟩ :=
    onlyIp_setReg_ip { s with flags := compareOutcome a b } (s.reg .ip + BitVec.ofNat 32 op.length)
  exact ⟨compareOutcome_eq_outcome a b, hip, hmem, rfl, rfl, rfl, rfl⟩

/-! ## Transfers (R175) -/

/-- A transfer whose target PS + addr reaches 2^32 raises StackOverflow. -/
theorem jumpTo_overflow {s : State} {addr : Word} (h : 2 ^ 32 ≤ ea s addr) :
    jumpTo addr s = .error .stackOverflow := by
  rw [jumpTo, effectiveAddress_overflow h, error_bind]

/-- An instruction that transfers to PS + addr and finishes is a taken jump, by whether the target fits. -/
theorem jumpTaken_of_exec {i : Instr} {s : State} {addr : Word} (hexec : exec i s = finish s (jumpTo addr s)) :
    JumpTaken i s addr := by
  constructor
  · intro hfits
    exact completes_of_exec hexec (jumpTo_eq_ok.2 ⟨hfits, rfl⟩) (onlyIp_setReg_ip s _)
  · intro hover
    rw [jumpTo_overflow hover, finish_error] at hexec
    exact ⟨_, hexec, State.raise_run s _, State.raise_reg s _ .ip⟩

/-- An instruction of five bytes that only advances is a jump not taken. -/
theorem jumpNotTaken_of_exec {i : Instr} {s : State} (hexec : exec i s = finish s (advance 5 s)) :
    JumpNotTaken i s := by
  intro hadv
  exact completes_of_exec hexec (advance_eq_ok.2 ⟨hadv, rfl⟩) (onlyIp_setReg_ip s _)

/-! ## The conditions (R181) -/

theorem takenGe_iff (c : Comparison) : takenGe c = true ↔ c = .gt := by
  cases c <;> decide

theorem takenGte_iff (c : Comparison) : takenGte c = true ↔ c = .gt ∨ c = .gte := by
  cases c <;> decide

theorem takenLt_iff (c : Comparison) : takenLt c = true ↔ c = .lt := by
  cases c <;> decide

theorem takenLte_iff (c : Comparison) : takenLte c = true ↔ c = .lt ∨ c = .lte := by
  cases c <;> decide

/-- A conditional jump transfers where its condition holds and advances where it does not. -/
theorem conditionalResult_of_exec {i : Instr} {s : State} {op : Opcode} {taken : Bool} {cond : Prop} {addr : Word}
    (hlen : op.length = 5) (hcond : taken = true ↔ cond) (hexec : exec i s = finish s (jumpIf op taken addr s)) :
    ConditionalResult i s addr cond := by
  constructor
  · intro hc
    rw [jumpIf, if_pos (hcond.2 hc)] at hexec
    exact jumpTaken_of_exec hexec
  · intro hc
    rw [jumpIf, if_neg (mt hcond.1 hc), hlen] at hexec
    exact jumpNotTaken_of_exec hexec

/-! ## The obligations -/

/-- Settles O43: the compare of the two registers, and the two register bytes of R87. -/
theorem cmpRegResult : Obligations.CmpRegResult := by
  intro a b s
  exact ⟨rfl, compareResult_of_exec (op := .cmpReg) rfl,
    eitherBadRegisterRaises_of_decodeWindow (mk := .cmpReg) (fun _ _ => rfl)⟩

/-- Settles O44: the compare of the two immediates, once for each width. -/
theorem cmpImmediateResult : Obligations.CmpImmediateResult := by
  intro s
  refine ⟨fun a b => ⟨rfl, ?_⟩, fun a b => ⟨rfl, ?_⟩, fun a b => ⟨rfl, ?_⟩⟩
  · exact compareResult_of_exec (op := .cmpU8) rfl
  · exact compareResult_of_exec (op := .cmpU16) rfl
  · exact compareResult_of_exec (op := .cmpU32) rfl

/-- Settles O45: the jump that is always taken. -/
theorem jumpResult : Obligations.JumpResult := by
  intro addr s
  exact ⟨rfl, jumpTaken_of_exec rfl⟩

/-- Settles O46: one conditional jump, with the condition of each rule. -/
theorem conditionalJumpResults : Obligations.ConditionalJumpResults := by
  intro addr s
  refine ⟨rfl, rfl, rfl, rfl, ?_, ?_, ?_, ?_⟩
  · exact conditionalResult_of_exec (op := .jumpGe) rfl (takenGe_iff s.flags) rfl
  · exact conditionalResult_of_exec (op := .jumpGte) rfl (takenGte_iff s.flags) rfl
  · exact conditionalResult_of_exec (op := .jumpLt) rfl (takenLt_iff s.flags) rfl
  · exact conditionalResult_of_exec (op := .jumpLte) rfl (takenLte_iff s.flags) rfl

end Sys2Proof.Machine
end

section
/-!
PROOFS. The encoding (spec/30_encoding.md R80 to R92): the decoder inverts the encoder, what decodes is an encoding, and
the bytes that name nothing raise by name.
-/

namespace Sys2Proof.Machine

open Sys2Proof.Claims

/-! ## Known bytes (R84, R21) -/

/-- The opcode bytes are those below 0x2A (R84). -/
theorem opcode_toByte_lt (op : Opcode) : op.toByte.toNat < 0x2A := by
  cases op <;> decide

/-- A byte from 0x2A on names no opcode (R90, R221). -/
theorem decodeOpcode_of_unknown {b : Byte} (h : 0x2A ≤ b.toNat) : decodeOpcode b = .error (.invalidOpCode b) := by
  unfold decodeOpcode
  split
  · next op hop =>
    have hlt := opcode_toByte_lt op
    rw [Opcode.toByte_of_ofByte hop] at hlt
    omega
  · rfl

/-- A byte below 0x2A is an opcode's (R84). -/
theorem exists_opcode_of_lt {b : Byte} (h : b.toNat < 0x2A) : ∃ op : Opcode, b = op.toByte := by
  have hall : ∀ n : Fin 0x2A, (Opcode.ofByte (BitVec.ofNat 8 n)).isSome = true := by decide
  have hb := hall ⟨b.toNat, h⟩
  rw [BitVec.ofNat_toNat, BitVec.setWidth_eq] at hb
  obtain ⟨op, hop⟩ := Option.isSome_iff_exists.1 hb
  exact ⟨op, (Opcode.toByte_of_ofByte hop).symm⟩

/-- A byte below 0x0B is a register's (R21). -/
theorem exists_reg_of_lt {b : Byte} (h : b.toNat < 0x0B) : ∃ r : Reg, b = r.toByte := by
  have hall : ∀ n : Fin 0x0B, (Reg.ofByte (BitVec.ofNat 8 n)).isSome = true := by decide
  have hb := hall ⟨b.toNat, h⟩
  rw [BitVec.ofNat_toNat, BitVec.setWidth_eq] at hb
  obtain ⟨r, hr⟩ := Option.isSome_iff_exists.1 hb
  exact ⟨r, (Reg.toByte_of_ofByte hr).symm⟩

/-- The bytes that name a register are those below 0x0B (R21). -/
theorem exists_toByte_iff {b : Byte} : (∃ r : Reg, b = r.toByte) ↔ b.toNat < 0x0B := by
  constructor
  · rintro ⟨r, rfl⟩
    exact reg_toByte_lt r
  · exact exists_reg_of_lt

theorem isSome_regOfByte_iff {b : Byte} : (Reg.ofByte b).isSome = true ↔ b.toNat < 0x0B := by
  rw [← exists_toByte_iff, Option.isSome_iff_exists]
  constructor
  · rintro ⟨r, hr⟩
    exact ⟨r, (Reg.toByte_of_ofByte hr).symm⟩
  · rintro ⟨r, rfl⟩
    exact ⟨r, Reg.ofByte_toByte r⟩

/-! ## Operands in a window (R83, R87 to R89) -/

@[simp] theorem regAt_cons (r : Reg) (win : List Byte) : regAt (r.toByte :: win) 0 = .ok r := decodeReg_toByte r
@[simp] theorem regAt_second (b : Byte) (r : Reg) (win : List Byte) : regAt (b :: r.toByte :: win) 1 = .ok r :=
  decodeReg_toByte r
@[simp] theorem regAt_bytes32 (v : Word) (r : Reg) (win : List Byte) : regAt (bytes32 v ++ r.toByte :: win) 4 = .ok r :=
  decodeReg_toByte r

@[simp] theorem imm32At_bytes32 (v : Word) : imm32At (bytes32 v) 0 = v := word32_bytes v
@[simp] theorem imm32At_bytes32_append (v : Word) (win : List Byte) : imm32At (bytes32 v ++ win) 0 = v := word32_bytes v
@[simp] theorem imm32At_cons_bytes32 (b : Byte) (v : Word) : imm32At (b :: bytes32 v) 1 = v := word32_bytes v
@[simp] theorem imm32At_append_bytes32 (u v : Word) : imm32At (bytes32 u ++ bytes32 v) 4 = v := word32_bytes v

@[simp] theorem imm16At_bytes16 (v : BitVec 16) : imm16At (bytes16 v) 0 = v := word16_bytes v
@[simp] theorem imm16At_bytes16_append (v : BitVec 16) (win : List Byte) : imm16At (bytes16 v ++ win) 0 = v :=
  word16_bytes v
@[simp] theorem imm16At_cons_bytes16 (b : Byte) (v : BitVec 16) : imm16At (b :: bytes16 v) 1 = v := word16_bytes v
@[simp] theorem imm16At_append_bytes16 (u v : BitVec 16) : imm16At (bytes16 u ++ bytes16 v) 2 = v := word16_bytes v
@[simp] theorem imm16At_bytes32_bytes16 (u : Word) (v : BitVec 16) : imm16At (bytes32 u ++ bytes16 v) 4 = v :=
  word16_bytes v

@[simp] theorem imm8At_cons (b : Byte) (win : List Byte) : imm8At (b :: win) 0 = b := rfl
@[simp] theorem imm8At_second (b c : Byte) (win : List Byte) : imm8At (b :: c :: win) 1 = c := rfl
@[simp] theorem imm8At_bytes32 (v : Word) (b : Byte) (win : List Byte) : imm8At (bytes32 v ++ b :: win) 4 = b := rfl

/-! ## From an instruction to its window and back (R92) -/

/-- The operand bytes fill the window of the opcode (R80). -/
theorem length_operandBytes (i : Instr) : i.operandBytes.length = i.opcode.length - 1 := by
  cases i <;> rfl

/-- The window of an instruction decodes to it: each operand is read from the place it was written to. -/
theorem decodeWindow_operandBytes (i : Instr) : decodeWindow i.opcode i.operandBytes = .ok i := by
  cases i <;> simp [Instr.opcode, Instr.operandBytes, decodeWindow]

/-- A window is its bytes in order. -/
theorem map_windowByte_range (win : List Byte) : (List.range win.length).map (windowByte win) = win := by
  apply List.ext_getElem
  · simp
  · intro k h1 h2
    simp [windowByte, h2]

/-- A register operand decodes where its byte is the register's (R87). -/
theorem regAt_eq_ok {win : List Byte} {k : Nat} {r : Reg} : regAt win k = .ok r ↔ windowByte win k = r.toByte :=
  decodeReg_eq_ok

/-- The four bytes of an operand are the window's, in order (R88). -/
theorem bytes32_imm32At (win : List Byte) (k : Nat) :
    bytes32 (imm32At win k) =
      [windowByte win k, windowByte win (k + 1), windowByte win (k + 2), windowByte win (k + 3)] :=
  bytes32_word32 _ _ _ _

/-- The two bytes of an operand are the window's, in order (R89). -/
theorem bytes16_imm16At (win : List Byte) (k : Nat) :
    bytes16 (imm16At win k) = [windowByte win k, windowByte win (k + 1)] :=
  bytes16_word16 _ _

/-- What a window decodes to has the opcode and every byte of the window: no bit is ignored. By how many register
operands the format has. -/
theorem opcode_operandBytes_of_decodeWindow {op : Opcode} {win : List Byte} {i : Instr}
    (hlen : win.length = op.length - 1) (h : decodeWindow op win = .ok i) : i.opcode = op ∧ i.operandBytes = win := by
  rw [← map_windowByte_range win, hlen]
  cases op <;> simp only [decodeWindow, bind_eq_ok, regAt_eq_ok, pure_eq_ok, Except.ok.injEq] at h
  case movRegReg | addRegReg | cmpReg =>
    obtain ⟨a, ha, b, hb, rfl⟩ := h
    exact ⟨rfl, by simp only [Instr.operandBytes, ← ha, ← hb]; rfl⟩
  case movRegU8 | movRegU16 | movRegU32 | movRegMem | movMemReg | addRegU8 | addRegU16 | addRegU32 | addRegMem |
      addMemReg | incReg | pushReg | popReg | load | storeReg | interruptReg =>
    obtain ⟨r, hr, rfl⟩ := h
    exact ⟨rfl, by simp only [Instr.operandBytes, ← hr, bytes32_imm32At, bytes16_imm16At]; rfl⟩
  all_goals
    subst h
    exact ⟨rfl, by simp only [Instr.operandBytes, bytes32_imm32At, bytes16_imm16At]; rfl⟩

/-! ## The register bytes of a window (R87) -/

/-- A window decodes exactly when all register bytes of its format name registers. -/
theorem exists_decodeWindow_iff {op : Opcode} {win : List Byte} :
    (∃ i, decodeWindow op win = .ok i) ↔
      ∀ k ∈ registerOffsets op.format.operands 0, (windowByte win k).toNat < 0x0B := by
  cases op <;>
    simp [decodeWindow, bind_eq_ok, regAt_eq_ok, exists_toByte_iff, Opcode.format, Format.operands, registerOffsets,
      OperandKind.size]

/-- The first bad register byte is the one raised (R87, D20). -/
theorem decodeWindow_of_first_bad {op : Opcode} {win : List Byte} {k : Nat}
    (hk : k ∈ registerOffsets op.format.operands 0) (hbad : 0x0B ≤ (windowByte win k).toNat)
    (hbefore : ∀ j ∈ registerOffsets op.format.operands 0, j < k → (windowByte win j).toNat < 0x0B) :
    decodeWindow op win = .error (.invalidRegister (windowByte win k)) := by
  have hraise : regAt win k = .error (.invalidRegister (windowByte win k)) := decodeReg_of_unknown hbad
  cases op
  case movRegReg | addRegReg | cmpReg =>
    have hpos : k = 0 ∨ k = 1 := by
      simpa [Opcode.format, Format.operands, registerOffsets] using hk
    obtain rfl | rfl := hpos
    · rw [decodeWindow, hraise, error_bind]
    · obtain ⟨a, ha⟩ := exists_reg_of_lt
        (hbefore 0 (by simp [Opcode.format, Format.operands, registerOffsets]) Nat.zero_lt_one)
      rw [decodeWindow, regAt_eq_ok.2 ha, ok_bind, hraise, error_bind]
  case movRegU8 | movRegU16 | movRegU32 | movRegMem | movMemReg | addRegU8 | addRegU16 | addRegU32 | addRegMem |
      addMemReg | incReg | pushReg | popReg | load | storeReg | interruptReg =>
    simp only [Opcode.format, Format.operands, registerOffsets, OperandKind.size, List.mem_singleton] at hk
    subst hk
    rw [decodeWindow, hraise, error_bind]
  all_goals simp [Opcode.format, Format.operands, registerOffsets] at hk

/-! ## Byte strings (R92) -/

/-- Decoding the encoding of an instruction with any bytes after it. -/
theorem decodeBytes_encode_append (i : Instr) (rest : List Byte) :
    decodeBytes (encode i ++ rest) = .ok (i, rest) := by
  have hwhole : ¬ (i.operandBytes ++ rest).length < i.operandBytes.length := by
    rw [List.length_append]
    omega
  simp only [encode, List.cons_append, decodeBytes, decodeOpcode_toByte, ← length_operandBytes, if_neg hwhole,
    List.take_left', List.drop_left', decodeWindow_operandBytes]

/-- When a byte string decodes: an opcode byte, a window of the opcode's size and an instruction in it. -/
theorem decodeBytes_eq_ok {bs rest : List Byte} {i : Instr} (h : decodeBytes bs = .ok (i, rest)) :
    ∃ (op : Opcode) (win : List Byte), bs = op.toByte :: win ++ rest ∧ win.length = op.length - 1 ∧
      decodeWindow op win = .ok i := by
  cases bs with
  | nil => cases h
  | cons b bytes =>
    simp only [decodeBytes] at h
    split at h
    · cases h
    · next op hop =>
      split at h
      · cases h
      · next hlong =>
        split at h
        · cases h
        · next j hj =>
          cases h
          refine ⟨op, bytes.take (op.length - 1), ?_, ?_, hj⟩
          · rw [decodeOpcode_eq_ok.1 hop, List.cons_append, List.take_append_drop]
          · rw [List.length_take]
            omega

/-- A byte string that is exactly one instruction: opcode, window length and register bytes. -/
theorem wellFormedBytes_cons (op : Opcode) (win : List Byte) :
    wellFormedBytes (op.toByte :: win) = true ↔
      win.length = op.length - 1 ∧ ∃ i, decodeWindow op win = .ok i := by
  have hpos := op.length_pos
  simp only [wellFormedBytes, Opcode.ofByte_toByte, Bool.and_eq_true, beq_iff_eq, List.all_eq_true,
    isSome_regOfByte_iff, exists_decodeWindow_iff]
  refine and_congr_left' ?_
  omega

/-! ## The obligations -/

/-- Settles O1: the opcode byte, the window's length and the window of an encoding give the instruction back. -/
theorem decodeInvertsEncode : Obligations.DecodeInvertsEncode := decodeBytes_encode_append

/-- Settles O2: the window that decodes is the instruction's operand bytes. -/
theorem decodedBytesAreTheEncoding : Obligations.DecodedBytesAreTheEncoding := by
  intro bs rest i h
  obtain ⟨op, win, rfl, hlen, hwin⟩ := decodeBytes_eq_ok h
  obtain ⟨rfl, rfl⟩ := opcode_operandBytes_of_decodeWindow hlen hwin
  rfl

/-- Settles O3: a well-formed window decodes, and what it decodes to has it as operand bytes. -/
theorem wellFormedBytesAreEncodings : Obligations.WellFormedBytesAreEncodings := by
  intro bs
  constructor
  · intro h
    cases bs with
    | nil => cases h
    | cons b win =>
      obtain ⟨op, rfl⟩ : ∃ op : Opcode, b = op.toByte := by
        by_contra hnone
        have hof : Opcode.ofByte b = none :=
          Option.eq_none_iff_forall_ne_some.2 (fun op hop => hnone ⟨op, (Opcode.toByte_of_ofByte hop).symm⟩)
        simp [wellFormedBytes, hof] at h
      obtain ⟨hlen, i, hi⟩ := (wellFormedBytes_cons op win).1 h
      obtain ⟨rfl, rfl⟩ := opcode_operandBytes_of_decodeWindow hlen hi
      exact ⟨i, rfl⟩
  · rintro ⟨i, rfl⟩
    exact (wellFormedBytes_cons _ _).2 ⟨length_operandBytes i, i, decodeWindow_operandBytes i⟩

/-- Settles O4: each byte string is the encoding of its instruction, written out. -/
theorem exampleWordsDecode : Obligations.ExampleWordsDecode :=
  ⟨decodeBytes_encode_append (.movRegReg .r2 .r1) [], decodeBytes_encode_append (.movRegU16 .r2 0x1234) [],
    decodeBytes_encode_append (.movMemReg 0x40 .r2) [], decodeBytes_encode_append (.addRegU8 .r5 1) [],
    decodeBytes_encode_append (.pushMem 0x40) [], decodeBytes_encode_append (.cmpU16 0x0100 0x00FF) [],
    decodeBytes_encode_append (.call 15) [], decodeBytes_encode_append (.load .r1 10) [],
    decodeBytes_encode_append (.storeU16 0x40 0xABCD) [], decodeBytes_encode_append (.interrupt 0) []⟩

/-- Settles O5: a byte below the bound is an opcode's, or a register's, and does not raise. -/
theorem reservedBytesRaiseByName : Obligations.ReservedBytesRaiseByName := by
  refine ⟨fun b => ⟨decodeOpcode_of_unknown, fun h => ?_⟩, fun b => ⟨decodeReg_of_unknown, fun h => ?_⟩⟩
  · by_contra hlt
    obtain ⟨op, rfl⟩ := exists_opcode_of_lt (Nat.lt_of_not_le hlt)
    rw [decodeOpcode_toByte] at h
    cases h
  · by_contra hlt
    obtain ⟨r, rfl⟩ := exists_reg_of_lt (Nat.lt_of_not_le hlt)
    rw [decodeReg_toByte] at h
    cases h

/-- Settles O58: offset 0 is the first register byte of each of the three. -/
theorem lowerBadRegisterByteIsReported : Obligations.LowerBadRegisterByteIsReported := by
  intro b c hb
  have hfirst {op : Opcode} (h0 : 0 ∈ registerOffsets op.format.operands 0) :
      decodeWindow op [b, c] = .error (.invalidRegister b) :=
    decodeWindow_of_first_bad (win := [b, c]) h0 hb (fun _ _ hj => absurd hj (Nat.not_lt_zero _))
  exact ⟨hfirst (by decide), hfirst (by decide), hfirst (by decide)⟩

end Sys2Proof.Machine
end

section
/-!
PROOFS. The fetch and the step (spec/30_encoding.md R93 to R99): a fetch answers the instruction whose bytes stand at IP,
and raises its errors in their order.
-/

namespace Sys2Proof.Machine

open Sys2Proof.Claims

/-! ## The window at IP -/

/-- The n bytes after the opcode byte at IP. -/
def windowAtIp (s : State) (n : Nat) : List Byte := (List.range n).map (fun k => s.mem.read ((s.reg .ip).toNat + 1 + k))

@[simp] theorem length_windowAtIp (s : State) (n : Nat) : (windowAtIp s n).length = n := by
  simp [windowAtIp]

/-- A byte of the window at IP is a byte of memory. -/
theorem windowByte_windowAtIp (s : State) {n k : Nat} (h : k < n) :
    windowByte (windowAtIp s n) k = s.mem.read ((s.reg .ip).toNat + 1 + k) := by
  simp [windowByte, windowAtIp, h]

/-- A register operand lies inside the operands it belongs to (R83). -/
theorem registerOffset_lt {l : List OperandKind} {n k : Nat} (h : k ∈ registerOffsets l n) :
    k < n + (l.map OperandKind.size).sum := by
  induction l generalizing n with
  | nil => simp [registerOffsets] at h
  | cons kind rest ih =>
    rw [List.map_cons, List.sum_cons]
    cases kind with
    | reg =>
      obtain rfl | hrest := List.mem_cons.1 h
      · simp only [OperandKind.size]
        omega
      · have := ih hrest
        simp only [OperandKind.size]
        omega
    | addr | imm8 | imm16 | imm32 =>
      have := ih h
      omega

/-- The register bytes of an opcode lie in its window (R83, R85). -/
theorem registerOffset_lt_length {op : Opcode} {k : Nat} (h : k ∈ registerOffsets op.format.operands 0) :
    k < op.length - 1 := by
  have := registerOffset_lt h
  unfold Opcode.length
  omega

/-! ## The bytes at IP and the fetch -/

/-- The bytes of an instruction stand at IP: its opcode byte, then its window. -/
theorem standsAtIp_iff {s : State} {i : Instr} :
    StandsAtIp s i ↔
      Exists s (s.reg .ip).toNat i.opcode.length ∧ s.mem.read (s.reg .ip).toNat = i.opcode.toByte ∧
        windowAtIp s (i.opcode.length - 1) = i.operandBytes := by
  have hpos := i.opcode.length_pos
  have hlen : (encode i).length = i.opcode.length := by
    rw [encode, List.length_cons, length_operandBytes]
    omega
  have hsucc (k : Nat) : (s.reg .ip).toNat + (k + 1) = (s.reg .ip).toNat + 1 + k := by omega
  refine and_congr (by rw [hlen]) ⟨fun h => ⟨h 0 (by omega), List.ext_getElem ?_ fun k hk hk' => ?_⟩, ?_⟩
  · rw [length_windowAtIp, length_operandBytes]
  · rw [length_windowAtIp] at hk
    have hbyte := h (k + 1) (by omega)
    rw [hsucc] at hbyte
    simpa [windowAtIp, encode] using hbyte
  · rintro ⟨hop, hwin⟩ k hk
    cases k with
    | zero => exact hop
    | succ k =>
      rw [hsucc]
      simp [encode, windowAtIp, ← hwin]

/-- A fetch answers exactly the instruction whose bytes stand at IP (R94, R95). -/
theorem fetch_eq_ok_iff_standsAtIp {s : State} {i : Instr} : fetch s = .ok i ↔ StandsAtIp s i := by
  rw [fetch_eq_ok, standsAtIp_iff]
  constructor
  · rintro ⟨⟨htop, hin⟩, op, hop, hroom, hwin⟩
    obtain ⟨rfl, hbytes⟩ := opcode_operandBytes_of_decodeWindow (length_windowAtIp s _) hwin
    have hpos := i.opcode.length_pos
    exact ⟨⟨by omega, by omega⟩, decodeOpcode_eq_ok.1 hop, hbytes.symm⟩
  · rintro ⟨⟨htop, hin⟩, hop, hbytes⟩
    have hpos := i.opcode.length_pos
    refine ⟨⟨by omega, by omega⟩, i.opcode, decodeOpcode_eq_ok.2 hop, by omega, ?_⟩
    have hwin := decodeWindow_operandBytes i
    rwa [← hbytes] at hwin

/-- A running engine runs the instruction whose bytes stand at IP. -/
theorem step_of_standsAtIp {s : State} {i : Instr} (hrun : s.run = .running) (h : StandsAtIp s i) :
    step s = exec i s :=
  step_of_fetch hrun (fetch_eq_ok_iff_standsAtIp.2 h)

/-! ## The errors of a fetch in their order (R99) -/

/-- A fetch whose opcode byte exists goes on with it. -/
theorem fetch_of_opcode_byte {s : State} (hin : (s.reg .ip).toNat < s.memSize) :
    fetch s = (do
      let op ← decodeOpcode (s.mem.read (s.reg .ip).toNat)
      let win ← memRange s ((s.reg .ip).toNat + 1) (op.length - 1)
      decodeWindow op win) := by
  rw [fetch, (checkByte_eq_ok (u := ())).2 ⟨(s.reg .ip).isLt, hin⟩, ok_bind]

/-- The opcode byte is outside memory (R223). -/
theorem fetch_outside {s : State} (h : s.memSize ≤ (s.reg .ip).toNat) :
    fetch s = .error (.invalidAddress (s.reg .ip)) := by
  have hlt := (s.reg .ip).isLt
  rw [fetch, checkByte, if_neg (by omega), if_pos h, error_bind, BitVec.ofNat_toNat, BitVec.setWidth_eq]

/-- The opcode byte names no opcode (R221). -/
theorem fetch_unknown_opcode {s : State} (hin : (s.reg .ip).toNat < s.memSize)
    (h : 0x2A ≤ (s.mem.read (s.reg .ip).toNat).toNat) :
    fetch s = .error (.invalidOpCode (s.mem.read (s.reg .ip).toNat)) := by
  rw [fetch_of_opcode_byte hin, decodeOpcode_of_unknown h, error_bind]

/-- The window is not all in memory (R99 step 3). -/
theorem fetch_window_error {s : State} {op : Opcode} {e : CpuError} (hin : (s.reg .ip).toNat < s.memSize)
    (hop : s.mem.read (s.reg .ip).toNat = op.toByte) (h : AccessError s ((s.reg .ip).toNat + 1) (op.length - 1) e) :
    fetch s = .error e := by
  rw [fetch_of_opcode_byte hin, hop, decodeOpcode_toByte, ok_bind, memRange, checkUp_of_accessError h, error_bind,
    error_bind]

/-- With its window in memory, an opcode is followed by the decoding of that window (R99 step 4). -/
theorem fetch_of_window {s : State} {op : Opcode} (hop : s.mem.read (s.reg .ip).toNat = op.toByte)
    (h : Exists s (s.reg .ip).toNat op.length) : fetch s = decodeWindow op (windowAtIp s (op.length - 1)) := by
  obtain ⟨htop, hin⟩ := h
  have hpos := op.length_pos
  have hwin : memRange s ((s.reg .ip).toNat + 1) (op.length - 1) = .ok (windowAtIp s (op.length - 1)) :=
    memRange_eq_ok.2 ⟨by omega, rfl⟩
  rw [fetch_of_opcode_byte (by omega), hop, decodeOpcode_toByte, ok_bind, hwin, ok_bind]

/-! ## The obligations -/

/-- Settles O6: the fetch answers the instruction that stands at IP. -/
theorem stepRunsTheInstructionAtIp : Obligations.StepRunsTheInstructionAtIp := fun _ _ => step_of_standsAtIp

/-- Settles O7: one lemma of the fetch per check of R99; with the registers good the window decodes. -/
theorem fetchErrorsInOrder : Obligations.FetchErrorsInOrder := by
  intro s hrun
  refine ⟨fun h => ?_, fun hin h => ?_, fun op hin hop e he => ?_, fun op hop hexists => ⟨?_, ?_⟩⟩
  · exact step_of_fetch_error hrun (fetch_outside h)
  · exact step_of_fetch_error hrun (fetch_unknown_opcode hin h)
  · exact step_of_fetch_error hrun (fetch_window_error hin hop he)
  · intro k hk hbad hbefore
    have hbyte {j : Nat} (hj : j ∈ registerOffsets op.format.operands 0) :=
      windowByte_windowAtIp s (registerOffset_lt_length hj)
    refine step_of_fetch_error hrun ?_
    rw [fetch_of_window hop hexists, ← hbyte hk]
    refine decodeWindow_of_first_bad hk ?_ fun j hj hlt => ?_
    · rwa [hbyte hk]
    · rw [hbyte hj]
      exact hbefore j hj hlt
  · intro hgood
    obtain ⟨i, hi⟩ : ∃ i, decodeWindow op (windowAtIp s (op.length - 1)) = .ok i := by
      refine exists_decodeWindow_iff.2 fun k hk => ?_
      rw [windowByte_windowAtIp s (registerOffset_lt_length hk)]
      exact hgood k hk
    have hfetch : fetch s = .ok i := (fetch_of_window hop hexists).trans hi
    exact ⟨i, (opcode_operandBytes_of_decodeWindow (length_windowAtIp s _) hi).1, fetch_eq_ok_iff_standsAtIp.1 hfetch,
      step_of_fetch hrun hfetch⟩

/-- Settles O8: the two stopped run states. -/
theorem stoppedEngineStays : Obligations.StoppedEngineStays := by
  intro s hstopped
  unfold step
  split
  · next hrun => exact absurd hrun hstopped
  · rfl
  · rfl

end Sys2Proof.Machine
end

section
/-!
PROOFS. What one instruction can do, said once for all 42 (`Effect`, `exec_eq_finish`), and the invariants and frames
that follow from it (spec/10_state.md R22 to R36, spec/20_memory.md R63, spec/60_exceptions.md R228).
-/

namespace Sys2Proof.Machine

open Sys2Proof.Claims

/-- Writing a register again keeps the last value. -/
theorem State.setReg_setReg_self (s : State) (r : Reg) (v w : Word) : (s.setReg r v).setReg r w = s.setReg r w := by
  cases r <;> rfl

/-! ## The effects -/

/-- What instruction `i` can leave of state `s` where it raises nothing: one case per kind of effect, with the values it
writes open and the registers and bytes it writes tied to what the statements list for `i`. -/
inductive Effect (i : Instr) (s : State) : State → Prop where
  /-- Halt (R213). -/
  | halts (hi : i = .halt) : Effect i s { s with run := .halted }
  /-- IP alone is written: a transfer, an advance, a destination IP, a nested interrupt. -/
  | movesIp (w : Word) : Effect i s (s.setReg .ip w)
  /-- The destination is written, then IP advances (R96). -/
  | writesRegister {dst : Reg} (hdst : destination i = some dst) (v w : Word) :
      Effect i s ((s.setReg dst v).setReg .ip w)
  /-- A compare writes the flag (R170). -/
  | compares (hi : isCompare i = true) (a b : Nat) (w : Word) :
      Effect i s ({ s with flags := compareOutcome a b }.setReg .ip w)
  /-- Bytes of memory are stored (R54). -/
  | stores {a n : Nat} (hw : writtenBytes s i = (a, n)) (hroom : a + n ≤ s.memSize) (v w : Word) :
      Effect i s ({ s with mem := s.mem.storeLE a v n }.setReg .ip w)
  /-- A word is pushed (R150). -/
  | pushes (hw : writtenBytes s i = ((s.reg .sp).toNat - 4, 4)) (hr : implicitWrites s i = [.sp]) (hroom : CanPush s 4)
      (v w : Word) : Effect i s ((pushWord v s).setReg .ip w)
  /-- A word is popped into the destination (R157); with destination IP, `v` and `w` are the word. -/
  | pops {dst : Reg} (hdst : destination i = some dst) (hr : implicitWrites s i = [.sp]) (v w : Word) :
      Effect i s (((popWord s).2.setReg dst v).setReg .ip w)
  /-- A Call's frame is pushed (R191). -/
  | calls (hw : writtenBytes s i = ((s.reg .sp).toNat - 24, 24)) (hr : implicitWrites s i = [.sp, .fp])
      (hroom : CanPush s 24) (ret w : Word) : Effect i s ((pushFrame ret s).setReg .ip w)
  /-- An interrupt saves the context (R210). -/
  | interrupts (hi : (∃ idx, i = .interrupt idx) ∨ ∃ r, i = .interruptReg r) (hfirst : s.inInt = false)
      (hw : writtenBytes s i = ((s.reg .sp).toNat - 24, 24)) (hr : implicitWrites s i = [.sp, .fp])
      (hroom : CanPush s 24) (ret w : Word) : Effect i s ({ pushFrame ret s with inInt := true }.setReg .ip w)
  /-- A frame is unwound (R192). -/
  | returns (hi : i = .ret) (hfits : (s.reg .fp).toNat + 24 < 2 ^ 32) : Effect i s (unwindFrame s)

/-- An operation of `i` in `s` raises address errors only, and what it answers is an effect of `i`. -/
def Acts (i : Instr) (s : State) (x : Except CpuError State) : Prop :=
  (∀ e, x = .error e → AddressError e) ∧ ∀ t, x = .ok t → Effect i s t

/-! ## The operations raise address errors only (R58) -/

theorem advance_error {s : State} {len : Nat} {e : CpuError} (h : advance len s = .error e) : AddressError e := by
  rcases bind_eq_error.1 h with h | ⟨_, _, h⟩
  · exact checkAddress_error h
  · cases h

theorem effectiveAddress_error {s : State} {off : Word} {e : CpuError} (h : effectiveAddress s off = .error e) :
    AddressError e := by
  rcases bind_eq_error.1 h with h | ⟨_, _, h⟩
  · exact checkAddress_error h
  · cases h

theorem loadOperand_error {s : State} {off : Word} {e : CpuError} (h : loadOperand s off = .error e) :
    AddressError e := by
  rcases bind_eq_error.1 h with h | ⟨_, _, h⟩
  · exact effectiveAddress_error h
  · rcases bind_eq_error.1 h with h | ⟨_, _, h⟩
    · exact checkUp_error h
    · cases h

theorem storeOperand_error {s : State} {off v : Word} {n : Nat} {e : CpuError} (h : storeOperand s off n v = .error e) :
    AddressError e := by
  rcases bind_eq_error.1 h with h | ⟨_, _, h⟩
  · exact effectiveAddress_error h
  · rcases bind_eq_error.1 h with h | ⟨_, _, h⟩
    · exact checkUp_error h
    · cases h

theorem jumpTo_error {s : State} {off : Word} {e : CpuError} (h : jumpTo off s = .error e) : AddressError e := by
  rcases bind_eq_error.1 h with h | ⟨_, _, h⟩
  · exact effectiveAddress_error h
  · cases h

theorem push_error {v : Word} {s : State} {e : CpuError} (h : push v s = .error e) : AddressError e := by
  rcases bind_eq_error.1 h with h | ⟨_, _, h⟩
  · exact checkDown_error h
  · cases h

theorem pop_error {s : State} {e : CpuError} (h : pop s = .error e) : AddressError e := by
  rcases bind_eq_error.1 h with h | ⟨_, _, h⟩
  · exact checkUp_error h
  · rcases bind_eq_error.1 h with h | ⟨_, _, h⟩
    · exact checkAddress_error h
    · cases h

theorem writeDestination_error {op : Opcode} {dst : Reg} {v : Word} {s : State} {e : CpuError}
    (h : writeDestination op dst v s = .error e) : AddressError e := by
  unfold writeDestination at h
  split at h
  · cases h
  · exact advance_error h

theorem checkFrameSave_error {s : State} {len : Nat} {e : CpuError} (h : checkFrameSave s len = .error e) :
    AddressError e := by
  unfold checkFrameSave at h
  split at h
  · cases h
  · rcases bind_eq_error.1 h with h | ⟨_, _, h⟩
    · exact checkDown_error h
    · exact checkAddress_error h

/-! ## Each shared operation acts as its kind -/

section Acts

variable {i : Instr} {s : State} {op : Opcode}

theorem acts_writeDestination {dst : Reg} (hdst : destination i = some dst) (v : Word) :
    Acts i s (writeDestination op dst v s) := by
  refine ⟨fun _ => writeDestination_error, fun t ht => ?_⟩
  obtain ⟨rfl, rfl⟩ | ⟨_, _, rfl⟩ := writeDestination_eq_ok.1 ht
  · exact .movesIp v
  · exact .writesRegister hdst v _

/-- Reading a memory operand first adds its errors only. -/
theorem acts_loadOperand_bind {addr : Word} {f : Word → Except CpuError State} (hf : ∀ m, Acts i s (f m)) :
    Acts i s (loadOperand s addr >>= f) := by
  constructor
  · intro e he
    rcases bind_eq_error.1 he with he | ⟨m, _, he⟩
    · exact loadOperand_error he
    · exact (hf m).1 e he
  · intro t ht
    obtain ⟨m, _, ht⟩ := bind_eq_ok.1 ht
    exact (hf m).2 t ht

theorem acts_storeAndAdvance {addr : Word} {n : Nat} (hn : n ≠ 0) (hw : writtenBytes s i = (ea s addr, n))
    (v : Word) : Acts i s (storeAndAdvance op addr n v s) := by
  constructor
  · intro e he
    rcases bind_eq_error.1 he with he | ⟨_, _, he⟩
    · exact storeOperand_error he
    · exact advance_error he
  · intro t ht
    obtain ⟨⟨_, hroom⟩, _, rfl⟩ := (storeAndAdvance_eq_ok hn).1 ht
    exact .stores hw hroom v _

theorem acts_addToMemory {addr : Word} (hw : writtenBytes s i = (ea s addr, 4)) (v : Word) :
    Acts i s (addToMemory op addr v s) := by
  rw [addToMemory_eq_load_store]
  exact acts_loadOperand_bind fun m => acts_storeAndAdvance four_ne_zero hw (m + v)

theorem acts_pushAndAdvance (hw : writtenBytes s i = ((s.reg .sp).toNat - 4, 4)) (hr : implicitWrites s i = [.sp])
    (v : Word) : Acts i s (pushAndAdvance op v s) := by
  constructor
  · intro e he
    rcases bind_eq_error.1 he with he | ⟨_, _, he⟩
    · exact push_error he
    · exact advance_error he
  · intro t ht
    obtain ⟨hroom, _, rfl⟩ := pushAndAdvance_eq_ok.1 ht
    exact .pushes hw hr hroom v _

theorem acts_compareAndAdvance (hi : isCompare i = true) (a b : Nat) : Acts i s (compareAndAdvance op a b s) := by
  refine ⟨fun _ => advance_error, fun t ht => ?_⟩
  obtain ⟨_, rfl⟩ := compareAndAdvance_eq_ok.1 ht
  exact .compares hi a b _

theorem acts_jumpTo (addr : Word) : Acts i s (jumpTo addr s) := by
  refine ⟨fun _ => jumpTo_error, fun t ht => ?_⟩
  obtain ⟨_, rfl⟩ := jumpTo_eq_ok.1 ht
  exact .movesIp _

theorem acts_jumpIf (taken : Bool) (addr : Word) : Acts i s (jumpIf op taken addr s) := by
  unfold jumpIf
  split
  · exact acts_jumpTo addr
  · refine ⟨fun _ => advance_error, fun t ht => ?_⟩
    obtain ⟨_, rfl⟩ := advance_eq_ok.1 ht
    exact .movesIp _

/-- A pop into a destination, SP advanced first (R157). -/
theorem acts_pop {dst : Reg} (hdst : destination i = some dst) (hr : implicitWrites s i = [.sp]) :
    Acts i s (pop s >>= fun popped => writeDestination op dst popped.1 popped.2) := by
  constructor
  · intro e he
    rcases bind_eq_error.1 he with he | ⟨_, _, he⟩
    · exact pop_error he
    · exact writeDestination_error he
  · intro t ht
    obtain ⟨p, hp, ht⟩ := bind_eq_ok.1 ht
    obtain ⟨_, _, rfl⟩ := pop_eq_ok.1 hp
    obtain ⟨rfl, rfl⟩ | ⟨_, _, rfl⟩ := writeDestination_eq_ok.1 ht
    · rw [← State.setReg_setReg_self _ _ (popWord s).1]
      exact .pops hdst hr _ _
    · exact .pops hdst hr _ _

theorem acts_callTo {addr : Word} (hw : writtenBytes s i = ((s.reg .sp).toNat - 24, 24))
    (hr : implicitWrites s i = [.sp, .fp]) : Acts i s (callTo addr s) := by
  constructor
  · intro e he
    rcases bind_eq_error.1 he with he | ⟨_, _, he⟩
    · exact checkDown_error he
    · rcases bind_eq_error.1 he with he | ⟨_, _, he⟩
      · exact checkAddress_error he
      · rcases bind_eq_error.1 he with he | ⟨_, _, he⟩
        · exact effectiveAddress_error he
        · cases he
  · intro t ht
    obtain ⟨hroom, _, _, rfl⟩ := callTo_eq_ok.1 ht
    exact .calls hw hr hroom _ _

theorem acts_returnFromFrame (hi : i = .ret) : Acts i s (returnFromFrame s) := by
  constructor
  · intro e he
    rcases bind_eq_error.1 he with he | ⟨_, _, he⟩
    · exact checkUp_error he
    · rcases bind_eq_error.1 he with he | ⟨_, _, he⟩
      · exact checkAddress_error he
      · rcases bind_eq_error.1 he with he | ⟨_, _, he⟩
        · exact checkAddress_error he
        · cases he
  · intro t ht
    obtain ⟨⟨hfits, _⟩, _, rfl⟩ := returnFromFrame_eq_ok.1 ht
    exact .returns hi hfits

/-- An interrupt entry is a saving one or a bare transfer, by in_int (R231). -/
theorem acts_dispatch (hi : (∃ idx, i = .interrupt idx) ∨ ∃ r, i = .interruptReg r) (idx len : Nat) :
    Acts i s (dispatch idx len s) := by
  constructor
  · intro e he
    rcases bind_eq_error.1 he with he | ⟨_, _, he⟩
    · exact checkFrameSave_error he
    · rcases bind_eq_error.1 he with he | ⟨_, _, he⟩
      · exact checkUp_error he
      · cases he
  · intro t ht
    obtain ⟨hsave, _, rfl⟩ := dispatch_eq_ok.1 ht
    cases hin : s.inInt with
    | true =>
      rw [saveContext_nested hin]
      exact .movesIp _
    | false =>
      obtain ⟨hroom, _⟩ := hsave.resolve_left (by simp [hin])
      rw [saveContext_first hin]
      refine .interrupts hi hin ?_ ?_ hroom _ _
      · obtain ⟨idx, rfl⟩ | ⟨r, rfl⟩ := hi <;> simp [writtenBytes, hin]
      · obtain ⟨idx, rfl⟩ | ⟨r, rfl⟩ := hi <;> simp [implicitWrites, hin]

end Acts

/-! ## Every instruction -/

/-- The meaning of every instruction, Halt included, is an operation that raises address errors only and whose answer is
an effect of the instruction. -/
theorem exec_eq_finish (i : Instr) (s : State) : ∃ x, exec i s = finish s x ∧ Acts i s x := by
  cases i with
  | movRegReg dst src => exact ⟨_, rfl, acts_writeDestination rfl _⟩
  | movRegU8 dst imm => exact ⟨_, rfl, acts_writeDestination rfl _⟩
  | movRegU16 dst imm => exact ⟨_, rfl, acts_writeDestination rfl _⟩
  | movRegU32 dst imm => exact ⟨_, rfl, acts_writeDestination rfl _⟩
  | movRegMem dst addr => exact ⟨_, rfl, acts_loadOperand_bind fun m => acts_writeDestination rfl m⟩
  | movMemReg addr src => exact ⟨_, rfl, acts_storeAndAdvance four_ne_zero rfl _⟩
  | movMemU8 addr imm => exact ⟨_, rfl, acts_storeAndAdvance one_ne_zero rfl _⟩
  | movMemU16 addr imm => exact ⟨_, rfl, acts_storeAndAdvance two_ne_zero rfl _⟩
  | movMemU32 addr imm => exact ⟨_, rfl, acts_storeAndAdvance four_ne_zero rfl _⟩
  | addRegReg dst src => exact ⟨_, rfl, acts_writeDestination rfl _⟩
  | addRegU8 dst imm => exact ⟨_, rfl, acts_writeDestination rfl _⟩
  | addRegU16 dst imm => exact ⟨_, rfl, acts_writeDestination rfl _⟩
  | addRegU32 dst imm => exact ⟨_, rfl, acts_writeDestination rfl _⟩
  | addRegMem dst addr => exact ⟨_, rfl, acts_loadOperand_bind fun m => acts_writeDestination rfl _⟩
  | addMemReg addr src => exact ⟨_, rfl, acts_addToMemory rfl _⟩
  | incReg reg => exact ⟨_, rfl, acts_writeDestination rfl _⟩
  | incMem addr => exact ⟨_, rfl, acts_addToMemory rfl _⟩
  | pushReg src => exact ⟨_, rfl, acts_pushAndAdvance rfl rfl _⟩
  | pushMem addr => exact ⟨_, rfl, acts_loadOperand_bind fun m => acts_pushAndAdvance rfl rfl m⟩
  | pushU8 imm => exact ⟨_, rfl, acts_pushAndAdvance rfl rfl _⟩
  | pushU16 imm => exact ⟨_, rfl, acts_pushAndAdvance rfl rfl _⟩
  | pushU32 imm => exact ⟨_, rfl, acts_pushAndAdvance rfl rfl _⟩
  | popReg dst => exact ⟨_, rfl, acts_pop rfl rfl⟩
  | cmpReg a b => exact ⟨_, rfl, acts_compareAndAdvance rfl _ _⟩
  | cmpU8 a b => exact ⟨_, rfl, acts_compareAndAdvance rfl _ _⟩
  | cmpU16 a b => exact ⟨_, rfl, acts_compareAndAdvance rfl _ _⟩
  | cmpU32 a b => exact ⟨_, rfl, acts_compareAndAdvance rfl _ _⟩
  | jump addr => exact ⟨_, rfl, acts_jumpTo addr⟩
  | jumpGe addr => exact ⟨_, rfl, acts_jumpIf _ addr⟩
  | jumpGte addr => exact ⟨_, rfl, acts_jumpIf _ addr⟩
  | jumpLt addr => exact ⟨_, rfl, acts_jumpIf _ addr⟩
  | jumpLte addr => exact ⟨_, rfl, acts_jumpIf _ addr⟩
  | call addr => exact ⟨_, rfl, acts_callTo rfl rfl⟩
  | load dst addr => exact ⟨_, rfl, acts_loadOperand_bind fun m => acts_writeDestination rfl m⟩
  | storeReg src addr => exact ⟨_, rfl, acts_storeAndAdvance four_ne_zero rfl _⟩
  | storeU8 addr imm => exact ⟨_, rfl, acts_storeAndAdvance one_ne_zero rfl _⟩
  | storeU16 addr imm => exact ⟨_, rfl, acts_storeAndAdvance two_ne_zero rfl _⟩
  | storeU32 addr imm => exact ⟨_, rfl, acts_storeAndAdvance four_ne_zero rfl _⟩
  | interrupt idx => exact ⟨_, rfl, acts_dispatch (.inl ⟨idx, rfl⟩) _ _⟩
  | interruptReg reg => exact ⟨_, rfl, acts_dispatch (.inr ⟨reg, rfl⟩) _ _⟩
  | halt => exact ⟨.ok { s with run := .halted }, rfl, nofun, fun _ h => Except.ok.inj h ▸ .halts rfl⟩
  | ret => exact ⟨_, rfl, acts_returnFromFrame rfl⟩

/-- What an instruction that answers `t` has done: an effect of it, or an address error raised. -/
theorem exec_cases {i : Instr} {s t : State} (h : exec i s = .next t) :
    Effect i s t ∨ ∃ e, AddressError e ∧ t = s.raise e := by
  obtain ⟨x, hexec, herror, hok⟩ := exec_eq_finish i s
  obtain hx | ⟨e, hx, rfl⟩ := finish_eq_next.1 (hexec.symm.trans h)
  · exact .inl (hok t hx)
  · exact .inr ⟨e, herror e hx, rfl⟩


/-! ## The memory a pushed frame leaves (R190) -/

/-- The words `w 0`, .., `w (n - 1)` stored in stack order below `top`, the first highest. -/
def Memory.storeStackWords (m : Memory) (top : Nat) (w : Nat → Word) : Nat → Memory
  | 0 => m
  | n + 1 => (Memory.storeStackWords m top w n).storeStack (top - 4 * n) (w n)

/-- A pushed frame is its six words below the old SP. -/
theorem pushFrame_mem_eq_storeStackWords (ret : Word) {s : State} (h : 24 ≤ (s.reg .sp).toNat) :
    (pushFrame ret s).mem = s.mem.storeStackWords (s.reg .sp).toNat (frameWord s ret) 6 :=
  pushFrame_mem ret s h

/-- Reading a byte after n stack words are stored below `top`. -/
theorem Memory.read_storeStackWords (m : Memory) {top n : Nat} (w : Nat → Word) (b : Nat) (h : 4 * n ≤ top) :
    (m.storeStackWords top w n).read b =
      if top - 4 * n ≤ b ∧ b < top then byteOf 32 (w ((top - 1 - b) / 4)) ((top - 1 - b) % 4) else m.read b := by
  induction n with
  | zero => rw [if_neg (by omega), Memory.storeStackWords]
  | succ n ih =>
    rw [Memory.storeStackWords, Memory.read_storeStack _ _ _ _ (by omega), ih (by omega)]
    by_cases hlast : top - 4 * n - 4 ≤ b ∧ b < top - 4 * n
    · rw [if_pos hlast, if_pos (by omega), show (top - 1 - b) / 4 = n by omega,
        show (top - 1 - b) % 4 = top - 4 * n - 1 - b by omega]
    · rw [if_neg hlast]
      by_cases hbefore : top - 4 * n ≤ b ∧ b < top
      · rw [if_pos hbefore, if_pos (by omega)]
      · rw [if_neg hbefore, if_neg (by omega)]

/-- Storing stack words inside memory keeps its canonical form and its bound. -/
theorem Memory.legal_storeStackWords {m : Memory} {k top n : Nat} (w : Nat → Word) (h : m.wf ∧ ∀ c ∈ m, c.1 < k)
    (hn : 4 * n ≤ top) (hk : top ≤ k) :
    (m.storeStackWords top w n).wf ∧ ∀ c ∈ m.storeStackWords top w n, c.1 < k := by
  induction n with
  | zero => exact h
  | succ n ih =>
    obtain ⟨hwf, hbound⟩ := ih (by omega)
    exact ⟨Memory.wf_storeStack hwf _ _, Memory.bound_storeStack hbound _ _ (by omega) (by omega)⟩

/-- A pushed frame is the frame of the statements. -/
theorem storesFrame_pushFrame (ret : Word) {s : State} (h : 24 ≤ (s.reg .sp).toNat) :
    StoresFrame s (pushFrame ret s) (s.reg .sp).toNat ret := by
  intro b
  rw [pushFrame_mem_eq_storeStackWords ret h]
  exact Memory.read_storeStackWords s.mem (frameWord s ret) b h

/-! ## What every effect leaves unchanged -/

section Frame

variable {i : Instr} {s t : State}

/-- No effect changes the inputs or MEM_SIZE. -/
theorem Effect.inputs_memSize (h : Effect i s t) : t.inputs = s.inputs ∧ t.memSize = s.memSize := by
  cases h with
  | halts hi => exact ⟨rfl, rfl⟩
  | movesIp w => exact ⟨rfl, rfl⟩
  | writesRegister hdst v w => exact ⟨rfl, rfl⟩
  | compares hi a b w => exact ⟨rfl, rfl⟩
  | stores hw hroom v w => exact ⟨rfl, rfl⟩
  | pushes hw hr hroom v w => exact ⟨rfl, rfl⟩
  | pops hdst hr v w => exact ⟨rfl, rfl⟩
  | calls hw hr hroom ret w => simp
  | interrupts hi hfirst hw hr hroom ret w => simp
  | returns hi hfits => exact ⟨unwindFrame_inputs s, unwindFrame_memSize s⟩

/-- The flag changes in a compare only. -/
theorem Effect.flags_eq (h : Effect i s t) :
    t.flags = s.flags ∨ isCompare i = true ∧ ∃ a b, t.flags = compareOutcome a b := by
  cases h with
  | halts hi => exact .inl rfl
  | movesIp w => exact .inl rfl
  | writesRegister hdst v w => exact .inl rfl
  | compares hi a b w => exact .inr ⟨hi, a, b, rfl⟩
  | stores hw hroom v w => exact .inl rfl
  | pushes hw hr hroom v w => exact .inl rfl
  | pops hdst hr v w => exact .inl rfl
  | calls hw hr hroom ret w => exact .inl (by simp)
  | interrupts hi hfirst hw hr hroom ret w => exact .inl (by simp)
  | returns hi hfits => exact .inl (unwindFrame_flags s)

/-- in_int changes in a first interrupt only, which sets it (R35). -/
theorem Effect.inInt_eq (h : Effect i s t) :
    t.inInt = s.inInt ∨
      s.inInt = false ∧ t.inInt = true ∧ ((∃ idx, i = .interrupt idx) ∨ ∃ r, i = .interruptReg r) := by
  cases h with
  | halts hi => exact .inl rfl
  | movesIp w => exact .inl rfl
  | writesRegister hdst v w => exact .inl rfl
  | compares hi a b w => exact .inl rfl
  | stores hw hroom v w => exact .inl rfl
  | pushes hw hr hroom v w => exact .inl rfl
  | pops hdst hr v w => exact .inl rfl
  | calls hw hr hroom ret w => exact .inl (by simp)
  | interrupts hi hfirst hw hr hroom ret w => exact .inr ⟨hfirst, by simp, hi⟩
  | returns hi hfits => exact .inl (unwindFrame_inInt s)

/-- The run state changes in Halt only, which changes nothing else (R213). -/
theorem Effect.run_eq (h : Effect i s t) : t.run = s.run ∨ i = .halt ∧ t = { s with run := .halted } := by
  cases h with
  | halts hi => exact .inr ⟨hi, rfl⟩
  | movesIp w => exact .inl rfl
  | writesRegister hdst v w => exact .inl rfl
  | compares hi a b w => exact .inl rfl
  | stores hw hroom v w => exact .inl rfl
  | pushes hw hr hroom v w => exact .inl rfl
  | pops hdst hr v w => exact .inl rfl
  | calls hw hr hroom ret w => exact .inl (by simp)
  | interrupts hi hfirst hw hr hroom ret w => exact .inl (by simp)
  | returns hi hfits => exact .inl (unwindFrame_run s)

/-- A register that is not IP, the destination or one written implicitly keeps its value (R23). -/
theorem Effect.reg_eq (h : Effect i s t) {r : Reg} (hip : r ≠ .ip) (hdst : destination i ≠ some r)
    (himp : r ∉ implicitWrites s i) : t.reg r = s.reg r := by
  cases h with
  | halts hi => rfl
  | movesIp w => exact State.reg_setReg_ne s w hip
  | writesRegister hdst' v w =>
    have hne : r ≠ _ := fun heq => hdst (heq ▸ hdst')
    rw [State.reg_setReg_ne _ w hip, State.reg_setReg_ne s v hne]
  | compares hi a b w => exact State.reg_setReg_ne _ w hip
  | stores hw hroom v w => exact State.reg_setReg_ne _ w hip
  | pushes hw hr hroom v w =>
    simp only [hr, List.mem_singleton] at himp
    rw [State.reg_setReg_ne _ w hip, pushWord_reg_ne v s himp]
  | pops hdst' hr v w =>
    have hne : r ≠ _ := fun heq => hdst (heq ▸ hdst')
    simp only [hr, List.mem_singleton] at himp
    rw [State.reg_setReg_ne _ w hip, State.reg_setReg_ne _ v hne, popWord_reg_ne s himp]
  | calls hw hr hroom ret w =>
    simp only [hr, List.mem_cons, List.not_mem_nil, or_false] at himp
    rw [State.reg_setReg_ne _ w hip, pushFrame_reg, if_neg himp]
  | interrupts hi hfirst hw hr hroom ret w =>
    simp only [hr, List.mem_cons, List.not_mem_nil, or_false] at himp
    rw [State.reg_setReg_ne _ w hip, State.reg_with_inInt, pushFrame_reg, if_neg himp]
  | returns hi hfits =>
    subst hi
    rw [unwindFrame_reg s r hfits]
    cases r with
    | ip => exact absurd rfl hip
    | sp | fp | r1 | r2 | r3 | r4 => simp [implicitWrites] at himp
    | r5 | r6 | r7 | r8 => rfl

/-- A byte outside those the instruction is listed to write reads as before (R63). -/
theorem Effect.read_eq (h : Effect i s t) {b : Nat}
    (hb : ¬ ((writtenBytes s i).1 ≤ b ∧ b < (writtenBytes s i).1 + (writtenBytes s i).2)) :
    t.mem.read b = s.mem.read b := by
  cases h with
  | halts hi => rfl
  | movesIp w => rfl
  | writesRegister hdst v w => rfl
  | compares hi c d w => rfl
  | stores hw hroom v w =>
    rw [hw] at hb
    rw [State.setReg_mem, Memory.read_storeLE, if_neg hb]
  | pushes hw hr hroom v w =>
    rw [hw] at hb
    have h4 := hroom.1
    rw [State.setReg_mem, pushWord_mem, Memory.read_storeStack _ _ _ _ h4, if_neg (by omega)]
  | pops hdst hr v w => rfl
  | calls hw hr hroom ret w =>
    rw [hw] at hb
    have h24 := hroom.1
    rw [State.setReg_mem, storesFrame_pushFrame ret h24, if_neg (by omega)]
  | interrupts hi hfirst hw hr hroom ret w =>
    rw [hw] at hb
    have h24 := hroom.1
    rw [State.setReg_mem, storesFrame_pushFrame ret h24, if_neg (by omega)]
  | returns hi hfits => rw [unwindFrame_mem]

/-- Memory stays canonical and inside MEM_SIZE: every effect writes bytes that exist (R50). -/
theorem Effect.memLegal (h : Effect i s t) (hmem : s.memLegal) : t.memLegal := by
  obtain ⟨hwf, hbound⟩ := hmem
  have hframe (ret : Word) (hroom : CanPush s 24) : (pushFrame ret s).mem.wf ∧
      ∀ c ∈ (pushFrame ret s).mem, c.1 < s.memSize := by
    rw [pushFrame_mem_eq_storeStackWords ret hroom.1]
    exact Memory.legal_storeStackWords _ ⟨hwf, hbound⟩ hroom.1 hroom.2
  cases h with
  | halts hi => exact ⟨hwf, hbound⟩
  | movesIp w => exact ⟨hwf, hbound⟩
  | writesRegister hdst v w => exact ⟨hwf, hbound⟩
  | compares hi a b w => exact ⟨hwf, hbound⟩
  | stores hw hroom v w => exact ⟨Memory.wf_storeLE hwf _ _ _, Memory.bound_storeLE hbound _ _ _ (.inr hroom)⟩
  | pushes hw hr hroom v w =>
    exact ⟨Memory.wf_storeStack hwf _ _, Memory.bound_storeStack hbound _ _ hroom.1 hroom.2⟩
  | pops hdst hr v w => exact ⟨hwf, hbound⟩
  | calls hw hr hroom ret w =>
    simpa only [State.memLegal, State.setReg_mem, State.setReg_memSize, pushFrame_memSize] using hframe ret hroom
  | interrupts hi hfirst hw hr hroom ret w =>
    simpa only [State.memLegal, State.setReg_mem, State.setReg_memSize, pushFrame_memSize] using hframe ret hroom
  | returns hi hfits =>
    rw [State.memLegal, unwindFrame_memSize, unwindFrame_mem]
    exact ⟨hwf, hbound⟩

end Frame

/-! ## The step -/

/-- What a window raises is a bad register byte of it (R87). -/
theorem decodeWindow_error {op : Opcode} {win : List Byte} {e : CpuError} (h : decodeWindow op win = .error e) :
    ∃ b, e = .invalidRegister b := by
  have hbad : ∃ k, k ∈ registerOffsets op.format.operands 0 ∧ 0x0B ≤ (windowByte win k).toNat := by
    by_contra hnone
    obtain ⟨i, hi⟩ := exists_decodeWindow_iff.2 fun k hk => Nat.lt_of_not_le fun hge => hnone ⟨k, hk, hge⟩
    rw [hi] at h
    cases h
  obtain ⟨hk, hge⟩ := Nat.find_spec hbad
  have hfirst := decodeWindow_of_first_bad hk hge fun j hj hlt =>
    Nat.lt_of_not_le fun hge' => Nat.find_min hbad hlt ⟨hj, hge'⟩
  rw [hfirst] at h
  cases h
  exact ⟨_, rfl⟩

/-- No fetch raises InvalidComparison (R226). -/
theorem fetch_error_ne_invalidComparison {s : State} {e : CpuError} (h : fetch s = .error e) (b : Byte) :
    e ≠ .invalidComparison b := by
  have haddress {e : CpuError} (he : AddressError e) : e ≠ .invalidComparison b := by
    obtain rfl | rfl | ⟨a, rfl⟩ := he <;> simp
  rcases bind_eq_error.1 h with h | ⟨_, _, h⟩
  · exact haddress (checkByte_error h)
  · rcases bind_eq_error.1 h with h | ⟨op, _, h⟩
    · unfold decodeOpcode at h
      split at h
      · cases h
      · cases h
        simp
    · rcases bind_eq_error.1 h with h | ⟨win, _, h⟩
      · rcases bind_eq_error.1 h with h | ⟨_, _, h⟩
        · exact haddress (checkUp_error h)
        · cases h
      · obtain ⟨c, rfl⟩ := decodeWindow_error h
        simp

/-- What a step can do: an effect of the instruction at IP, an error raised that is not InvalidComparison, or nothing in
a stopped engine. -/
theorem step_cases {s t : State} (h : step s = .next t) :
    (s.run = .running ∧ ∃ i, StandsAtIp s i ∧ Effect i s t) ∨
      (∃ e, (∀ b, e ≠ .invalidComparison b) ∧ t = s.raise e) ∨ (s.run ≠ .running ∧ t = s) := by
  by_cases hrun : s.run = .running
  · cases hfetch : fetch s with
    | ok i =>
      rw [step_of_fetch hrun hfetch] at h
      obtain heffect | ⟨e, he, rfl⟩ := exec_cases h
      · exact .inl ⟨hrun, i, fetch_eq_ok_iff_standsAtIp.1 hfetch, heffect⟩
      · refine .inr (.inl ⟨e, fun b => ?_, rfl⟩)
        obtain rfl | rfl | ⟨a, rfl⟩ := he <;> simp
    | error e =>
      rw [step_of_fetch_error hrun hfetch] at h
      cases h
      exact .inr (.inl ⟨e, fetch_error_ne_invalidComparison hfetch, rfl⟩)
  · rw [stoppedEngineStays s hrun] at h
    cases h
    exact .inr (.inr ⟨hrun, rfl⟩)

/-- A compare leaves Eq, Lt or Gt (R170). -/
theorem compareOutcome_cases (a b : Nat) :
    compareOutcome a b = .eq ∨ compareOutcome a b = .lt ∨ compareOutcome a b = .gt := by
  unfold compareOutcome
  split
  · exact .inr (.inr rfl)
  · split
    · exact .inr (.inl rfl)
    · exact .inl rfl

/-! ## The obligations -/

/-- Settles O11: by what a step can do; an effect keeps each part of the invariant, and a raised error keeps all but the
run state. -/
theorem stepKeepsLegal : Obligations.StepKeepsLegal := by
  rintro s t ⟨hsize, hmem, hflags, hrun⟩ hstep
  obtain ⟨hrunning, i, _, heffect⟩ | ⟨e, he, rfl⟩ | ⟨_, rfl⟩ := step_cases hstep
  · refine ⟨?_, heffect.memLegal hmem, ?_, fun b => ?_⟩
    · rw [State.memSizeLegal, heffect.inputs_memSize.2]
      exact hsize
    · obtain hsame | ⟨_, a, b, hcompare⟩ := heffect.flags_eq
      · rw [State.flagsLegal, hsame]
        exact hflags
      · rw [State.flagsLegal, hcompare]
        exact compareOutcome_cases a b
    · obtain hsame | ⟨_, rfl⟩ := heffect.run_eq
      · rw [hsame, hrunning]
        simp
      · simp
  · exact ⟨hsize, hmem, hflags, fun b hb => he b (RunState.faulted.inj hb)⟩
  · exact ⟨hsize, hmem, hflags, hrun⟩

/-- Settles O12: reset clears the flag and the run state and leaves memory; `State.reset` has nothing listed. -/
theorem resetIsLegal : Obligations.ResetIsLegal := by
  refine ⟨⟨by decide, ⟨wf_reset, by simp [State.reset]⟩, .inl rfl, fun b => by simp [State.reset]⟩, ?_⟩
  intro inputs fp s hsize hmem
  exact ⟨hsize, hmem, .inl rfl, fun b => by simp⟩

/-- Settles O9: `finish` answers a next state. -/
theorem everyStepAnswersANextState : Obligations.EveryStepAnswersANextState := by
  intro s
  by_cases hrun : s.run = .running
  · cases hfetch : fetch s with
    | ok i =>
      rw [step_of_fetch hrun hfetch]
      obtain ⟨x, hexec, _⟩ := exec_eq_finish i s
      rw [hexec]
      cases x with
      | ok t => exact ⟨t, rfl⟩
      | error e => exact ⟨s.raise e, rfl⟩
    | error e => exact ⟨s.raise e, step_of_fetch_error hrun hfetch⟩
  · exact ⟨s, stoppedEngineStays s hrun⟩

/-- Settles O14: no effect changes them, nor does a raised error. -/
theorem stepKeepsInputs : Obligations.StepKeepsInputs := by
  intro s t hstep
  obtain ⟨_, i, _, heffect⟩ | ⟨e, _, rfl⟩ | ⟨_, rfl⟩ := step_cases hstep
  · exact heffect.inputs_memSize
  · exact ⟨State.raise_inputs s e, State.raise_memSize s e⟩
  · exact ⟨rfl, rfl⟩

/-- Settles O15: the one effect that changes in_int sets it. -/
theorem interruptGuardIsSticky : Obligations.InterruptGuardIsSticky := by
  constructor
  · intro s t hstep hset
    obtain ⟨_, i, _, heffect⟩ | ⟨e, _, rfl⟩ | ⟨_, rfl⟩ := step_cases hstep
    · obtain hsame | ⟨_, hsets, _⟩ := heffect.inInt_eq
      · rw [hsame, hset]
      · exact hsets
    · rw [State.raise_inInt, hset]
    · exact hset
  · intro i s t hexec hne
    obtain heffect | ⟨e, _, rfl⟩ := exec_cases hexec
    · obtain hsame | ⟨hclear, _, hi⟩ := heffect.inInt_eq
      · exact absurd hsame hne
      · exact ⟨hclear, hi⟩
    · exact absurd (State.raise_inInt s e) hne

/-- Settles O16: the one effect that changes the flag is a compare's. -/
theorem onlyComparesWriteFlags : Obligations.OnlyComparesWriteFlags := by
  intro i s t hexec
  obtain heffect | ⟨e, _, rfl⟩ := exec_cases hexec
  · obtain hsame | ⟨hi, a, b, hcompare⟩ := heffect.flags_eq
    · exact ⟨fun _ => hsame, .inl hsame⟩
    · rw [hcompare]
      exact ⟨fun hno => absurd (hi.symm.trans hno) (by simp), .inr (compareOutcome_cases a b)⟩
  · exact ⟨fun _ => State.raise_flags s e, .inl (State.raise_flags s e)⟩

/-- Settles O17: an effect keeps the run state or is Halt's, and an operation raises address errors only. -/
theorem errorsArePrecise : Obligations.ErrorsArePrecise := by
  intro i s t hexec
  obtain heffect | ⟨e, he, rfl⟩ := exec_cases hexec
  · obtain hsame | hhalt := heffect.run_eq
    · exact .inl hsame
    · exact .inr (.inl hhalt)
  · exact .inr (.inr ⟨e, rfl, he⟩)

/-- Settles O18: the one effect that changes the run state is Halt's, and Halt's byte stands at IP. -/
theorem haltedOnlyByHalt : Obligations.HaltedOnlyByHalt := by
  intro s t hrun hstep hhalted
  obtain ⟨_, i, hat, heffect⟩ | ⟨e, _, rfl⟩ | ⟨hstopped, _⟩ := step_cases hstep
  · obtain hsame | ⟨rfl, ht⟩ := heffect.run_eq
    · rw [hsame, hrun] at hhalted
      cases hhalted
    · exact ⟨(standsAtIp_iff.1 hat).2.1, ht⟩
  · rw [State.raise_run] at hhalted
    cases hhalted
  · exact absurd hrun hstopped

/-- Settles O19: the registers an effect leaves. -/
theorem registersWrittenAreTheListed : Obligations.RegistersWrittenAreTheListed := by
  intro i s t hexec r hne
  obtain heffect | ⟨e, _, rfl⟩ := exec_cases hexec
  · by_contra hlisted
    obtain ⟨hip, hdst, himp⟩ : r ≠ .ip ∧ destination i ≠ some r ∧ r ∉ implicitWrites s i := by
      simpa only [not_or] using hlisted
    exact hne (heffect.reg_eq hip hdst himp)
  · exact absurd (State.raise_reg s e r) hne

/-- Settles O20: the bytes an effect leaves. -/
theorem bytesWrittenAreTheListed : Obligations.BytesWrittenAreTheListed := by
  intro i s t hexec b hb
  obtain heffect | ⟨e, _, rfl⟩ := exec_cases hexec
  · exact heffect.read_eq hb
  · rw [State.raise_mem]

end Sys2Proof.Machine
end

section
/-!
PROOFS. Data accesses (spec/20_memory.md R53, R54, R57; spec/40_mov.md, spec/41_add_inc.md, spec/45_load_store.md):
loads, stores, IncMem, and the error of an access, one lemma per form.
-/

namespace Sys2Proof.Machine

open Sys2Proof.Claims

/-! ## Raising -/

/-- An instruction whose operation raises leaves the state faulted with that error (R15). -/
theorem raisesError_of_exec {i : Instr} {s : State} {x : Except CpuError State} {e : CpuError}
    (hexec : exec i s = finish s x) (hx : x = .error e) : RaisesError i s e := by
  rw [RaisesError, hexec, hx, finish_error, State.raise]

/-- An instruction that reads a memory operand first raises the error of that read. -/
theorem raisesError_of_load {i : Instr} {s : State} {addr : Word} {e : CpuError} {f : Word → Except CpuError State}
    (hexec : exec i s = finish s (loadOperand s addr >>= f)) (h : AccessError s (ea s addr) 4 e) : RaisesError i s e :=
  raisesError_of_exec hexec (by rw [loadOperand_of_accessError h, error_bind])

/-- An instruction that stores at PS + addr raises the error of that store. -/
theorem raisesError_of_store {i : Instr} {s : State} {op : Opcode} {addr v : Word} {n : Nat} {e : CpuError}
    (hexec : exec i s = finish s (storeAndAdvance op addr n v s)) (h : AccessError s (ea s addr) n e) :
    RaisesError i s e :=
  raisesError_of_exec hexec (storeAndAdvance_of_accessError h)

/-- An instruction that adds to memory raises the error of its access. -/
theorem raisesError_of_addToMemory {i : Instr} {s : State} {op : Opcode} {addr v : Word} {e : CpuError}
    (hexec : exec i s = finish s (addToMemory op addr v s)) (h : AccessError s (ea s addr) 4 e) : RaisesError i s e :=
  raisesError_of_exec hexec (addToMemory_of_accessError h)

/-! ## Loads -/

/-- An instruction that loads the word at PS + addr into `dst` has the register result of that word. -/
theorem registerResult_of_load {i : Instr} {s : State} {op : Opcode} {dst : Reg} {addr : Word}
    (hexec : exec i s = finish s (loadOperand s addr >>= fun v => writeDestination op dst v s))
    (hexists : Exists s (ea s addr) 4) : RegisterResult i s dst (wordAt s.mem (ea s addr)) op.length := by
  rw [loadOperand_of_exists hexists, ok_bind] at hexec
  exact registerResult_of_exec hexec

/-! ## Words written and read back (R53, R54) -/

/-- A write of bytes that exist answers and stores them. -/
theorem memWrite_of_exists {s : State} {a n : Nat} (v : Word) (h : Exists s a n) :
    memWrite s a n v = .ok { s with mem := s.mem.storeLE a v n } :=
  memWrite_eq_ok.2 ⟨.inr h, rfl⟩

/-- A read of four bytes that exist answers their word. -/
theorem memRead_of_exists {s : State} {a : Nat} (h : Exists s a 4) : memRead s a 4 = .ok (wordAt s.mem a) := by
  rw [← ofNat_valueLE_four]
  exact memRead_eq_ok.2 ⟨.inr h, rfl⟩

/-- The word just stored is the word read. -/
theorem wordAt_storeLE (m : Memory) (a : Nat) (v : Word) : wordAt (m.storeLE a v 4) a = v := by
  rw [← ofNat_valueLE_four, Memory.valueLE_storeLE]

/-! ## The obligations -/

/-- Settles O21: the write answers, and the bytes it leaves are read as the word. -/
theorem memWriteThenMemRead : Obligations.MemWriteThenMemRead := by
  intro s a v hexists
  refine ⟨_, memWrite_of_exists v hexists, ?_, Memory.read_storeLE s.mem a v 4⟩
  rw [memRead_of_exists (s := { s with mem := s.mem.storeLE a v 4 }) hexists, wordAt_storeLE]

/-- Settles O27: both instructions load the same operand. -/
theorem loadWordResult : Obligations.LoadWordResult := by
  intro dst addr s
  exact ⟨rfl, rfl, registerResult_of_load (op := .movRegMem) rfl, registerResult_of_load (op := .load) rfl⟩

/-- Settles O28: both instructions store the register's four bytes. -/
theorem storeRegisterResult : Obligations.StoreRegisterResult := by
  intro src addr s
  exact ⟨rfl, rfl, storeResult_of_exec (op := .movMemReg) four_ne_zero rfl,
    storeResult_of_exec (op := .storeReg) four_ne_zero rfl⟩

/-- Settles O30: both instructions store the one byte of the immediate. -/
theorem storeByteImmediateResult : Obligations.StoreByteImmediateResult := by
  intro addr imm s
  rw [← immediate_eq_ofNat]
  exact ⟨rfl, rfl, storeResult_of_exec (op := .movMemU8) one_ne_zero rfl,
    storeResult_of_exec (op := .storeU8) one_ne_zero rfl⟩

/-- Settles O31: each Load and Store calls its twin's operation, and their opcodes have one length. -/
theorem loadStoreEqualTheirMovTwins : Obligations.LoadStoreEqualTheirMovTwins := by
  intro r addr s
  exact ⟨rfl, rfl, fun _ => rfl, fun _ => rfl, fun _ => rfl⟩

/-- Settles O32: by the form of the access, a load, a sum in memory or a store of 4, 2 or 1 bytes. -/
theorem dataAccessErrors : Obligations.DataAccessErrors := by
  intro r addr s e
  refine ⟨fun h4 => ⟨?_, ?_, ?_, ?_, ?_, ?_, ?_, ?_, fun imm => ⟨?_, ?_⟩⟩, fun h2 imm => ⟨?_, ?_⟩,
    fun h1 imm => ⟨?_, ?_⟩⟩
  · exact raisesError_of_load rfl h4
  · exact raisesError_of_load rfl h4
  · exact raisesError_of_load rfl h4
  · exact raisesError_of_load rfl h4
  · exact raisesError_of_store (op := .movMemReg) rfl h4
  · exact raisesError_of_store (op := .storeReg) rfl h4
  · exact raisesError_of_addToMemory (op := .addMemReg) rfl h4
  · exact raisesError_of_addToMemory (op := .incMem) rfl h4
  · exact raisesError_of_store (op := .movMemU32) rfl h4
  · exact raisesError_of_store (op := .storeU32) rfl h4
  · exact raisesError_of_store (op := .movMemU16) rfl h2
  · exact raisesError_of_store (op := .storeU16) rfl h2
  · exact raisesError_of_store (op := .movMemU8) rfl h1
  · exact raisesError_of_store (op := .storeU8) rfl h1

/-- Settles O38: the sum in memory with the word 1, and the error of its access. -/
theorem incMemResult : Obligations.IncMemResult := by
  intro addr s
  exact ⟨rfl, storeResult_of_addToMemory (op := .incMem) (v := 1) rfl,
    fun e => raisesError_of_addToMemory (op := .incMem) (v := 1) rfl⟩

end Sys2Proof.Machine
end

section
/-!
PROOFS. Push and Pop (spec/42_stack.md R150 to R159) and the two byte orders of a word (spec/20_memory.md R60, R61).
-/

namespace Sys2Proof.Machine

open Sys2Proof.Claims

/-! ## The two byte orders (R60, R61) -/

/-- A byte put below a number. -/
theorem toNat_append_byte {n : Nat} (x : BitVec n) (b : Byte) : (x ++ b).toNat = x.toNat * 2 ^ 8 + b.toNat := by
  rw [BitVec.toNat_append, ← Nat.shiftLeft_add_eq_or_of_lt b.isLt, Nat.shiftLeft_eq]

/-- The byte reversal in terms of the bytes of R11. -/
theorem byteReversed_eq_append (v : Word) :
    byteReversed v = byteOf 32 v 0 ++ byteOf 32 v 1 ++ byteOf 32 v 2 ++ byteOf 32 v 3 := rfl

/-- The four bytes of a word in the opposite order are the word of the opposite bytes. -/
theorem byteReversed_word32 (b0 b1 b2 b3 : Byte) : byteReversed (word32 b0 b1 b2 b3) = word32 b3 b2 b1 b0 := by
  have hbytes := bytes32_word32 b0 b1 b2 b3
  simp only [bytes32, List.cons.injEq, and_true] at hbytes
  obtain ⟨h0, h1, h2, h3⟩ := hbytes
  apply BitVec.eq_of_toNat_eq
  rw [byteReversed_eq_append, h0, h1, h2, h3, toNat_word32]
  simp only [toNat_append_byte]
  omega

/-- A word in stack order is the byte reversal of the little-endian word. -/
theorem stackWordAt_eq_byteReversed (m : Memory) (a : Nat) : stackWordAt m a = byteReversed (wordAt m a) :=
  (byteReversed_word32 _ _ _ _).symm

/-- A little-endian word is the byte reversal of the word in stack order. -/
theorem wordAt_eq_byteReversed (m : Memory) (a : Nat) : wordAt m a = byteReversed (stackWordAt m a) :=
  (byteReversed_word32 _ _ _ _).symm

/-- The stack word the machine reads is the stack word of the statements. -/
theorem stackWord_eq_stackWordAt (m : Memory) (a : Nat) : m.stackWord a = stackWordAt m a := by
  rw [Memory.stackWord, stackWordAt]
  congr 1
  omega

/-! ## Push (R150) -/

/-- A pushed word stands below the old SP in stack order. -/
theorem stackWordAt_of_storesStack {s t : State} {top : Nat} {v : Word} (h : StoresStack s t top v) (h4 : 4 ≤ top) :
    stackWordAt t.mem (top - 4) = v := by
  have hbyte {b k : Nat} (hb : b + k + 1 = top) (hk : k < 4) : t.mem.read b = byteOf 32 v k := by
    rw [h b, if_pos (by omega), show top - 1 - b = k by omega, byteOf]
  rw [← stackWord_eq_stackWordAt]
  exact Memory.stackWord_of_bytes (hbyte (by omega) (by omega)) (hbyte (by omega) (by omega))
    (hbyte (by omega) (by omega)) (hbyte (by omega) (by omega))

/-- An instruction that pushes `v` and advances has the push result. -/
theorem pushResult_of_exec {i : Instr} {s : State} {op : Opcode} {v : Word}
    (hexec : exec i s = finish s (pushAndAdvance op v s)) : PushResult i s v op.length := by
  intro hroom hadv
  refine completes_of_exec hexec (pushAndAdvance_eq_ok.2 ⟨hroom, hadv, rfl⟩)
    ⟨fun r => ?_, ⟨rfl, rfl, rfl, rfl, rfl⟩, fun b => ?_⟩
  · rw [State.reg_setReg]
    by_cases hip : r = .ip
    · subst hip
      simp
    · rw [if_neg hip, if_neg hip]
      split
      · next hsp => rw [hsp, pushWord_sp]
      · next hsp => exact pushWord_reg_ne v s hsp
  · rw [State.setReg_mem, pushWord_mem]
    exact Memory.read_storeStack s.mem _ v b hroom.1

/-- The checks of a push raise its error (R150, R191). -/
theorem checkDown_of_pushError {s : State} {n : Nat} {e : CpuError} (hn : n ≠ 0) (h : PushError s n e) :
    checkDown s (s.reg .sp).toNat n = .error e := by
  obtain ⟨k, rfl⟩ := Nat.exists_eq_succ_of_ne_zero hn
  rw [checkDown_succ]
  obtain ⟨h0, rfl⟩ | ⟨h1, hout, rfl⟩ | ⟨h1, hin, hroom, rfl⟩ := h
  · rw [if_pos h0]
  · rw [if_neg (by omega), if_pos hout]
  · rw [if_neg (by omega), if_neg (by omega), if_pos hroom]

/-- A push raises its error before the advance is looked at. -/
theorem pushAndAdvance_of_pushError {s : State} {op : Opcode} {v : Word} {e : CpuError} (h : PushError s 4 e) :
    pushAndAdvance op v s = .error e := by
  rw [pushAndAdvance, push, checkDown_of_pushError four_ne_zero h, error_bind, error_bind]

/-- An instruction that pushes raises the error of the push. -/
theorem raisesError_of_push {i : Instr} {s : State} {op : Opcode} {v : Word} {e : CpuError}
    (hexec : exec i s = finish s (pushAndAdvance op v s)) (h : PushError s 4 e) : RaisesError i s e :=
  raisesError_of_exec hexec (pushAndAdvance_of_pushError h)

/-- PushMem is a read followed by a push (R153). -/
theorem exec_pushMem_of_exists {s : State} {addr : Word} (h : Exists s (ea s addr) 4) :
    exec (.pushMem addr) s = finish s (pushAndAdvance .pushMem (wordAt s.mem (ea s addr)) s) := by
  have hexec : exec (.pushMem addr) s = finish s (loadOperand s addr >>= fun m => pushAndAdvance .pushMem m s) := rfl
  rw [hexec, loadOperand_of_exists h, ok_bind]

/-- PushU32 pushes its immediate as it is (R156). -/
theorem exec_pushU32 (imm : Word) (s : State) : exec (.pushU32 imm) s = finish s (pushAndAdvance .pushU32 imm s) := by
  conv_rhs => rw [← immediate_word imm]
  rfl

/-! ## Pop (R151, R157) -/

theorem exec_popReg (dst : Reg) (s : State) :
    exec (.popReg dst) s = finish s (pop s >>= fun popped => writeDestination .popReg dst popped.1 popped.2) := rfl

/-- A pop whose bytes exist and whose new SP fits goes on with the word at SP, SP advanced. -/
theorem exec_popReg_of_exists {s : State} (dst : Reg) (h : Exists s (s.reg .sp).toNat 4)
    (hfits : (s.reg .sp).toNat + 4 < 2 ^ 32) :
    exec (.popReg dst) s =
      finish s (writeDestination .popReg dst (stackWordAt s.mem (s.reg .sp).toNat) (popWord s).2) := by
  rw [exec_popReg, pop_eq_ok.2 ⟨hfits, h.2, rfl⟩, ok_bind, popWord_value, stackWord_eq_stackWordAt]

/-- What a PopReg that passes its checks leaves. -/
theorem popReg_completes {s : State} {dst : Reg} (h : Exists s (s.reg .sp).toNat 4)
    (hfits : (s.reg .sp).toNat + 4 < 2 ^ 32) (hadv : dst = .ip ∨ CanAdvance s 2) :
    Completes (.popReg dst) s (fun t =>
      (∀ r, t.reg r = if r = dst then stackWordAt s.mem (s.reg .sp).toNat else if r = .sp then s.reg .sp + 4#32
        else if r = .ip then s.reg .ip + 2#32 else s.reg r) ∧
      SameControl s t ∧ SameMemory s t) := by
  have hip : (popWord s).2.reg .ip = s.reg .ip := popWord_reg_ne s (by decide)
  have hadv' : dst = .ip ∨ CanAdvance (popWord s).2 Opcode.popReg.length := by
    rwa [CanAdvance, hip]
  obtain ⟨t, ht⟩ := writeDestination_of_fits (stackWordAt s.mem (s.reg .sp).toNat) hadv'
  obtain ⟨hregs, hcontrol, hmem⟩ := writesRegister_of_writeDestination ht
  refine completes_of_exec (exec_popReg_of_exists dst h hfits) ht ⟨fun r => ?_, hcontrol, hmem⟩
  rw [hregs r, hip]
  by_cases hsp : r = .sp
  · subst hsp
    simp
  · rw [if_neg hsp, popWord_reg_ne s hsp]
    rfl

/-! ## The obligations -/

/-- Settles O39: the push of the register as it is before the push. -/
theorem pushRegResult : Obligations.PushRegResult := by
  intro src s
  exact ⟨rfl, pushResult_of_exec (op := .pushReg) rfl, fun e => raisesError_of_push (op := .pushReg) rfl⟩

/-- Settles O40: the push of the widened immediate, once for each width. -/
theorem pushImmediateResult : Obligations.PushImmediateResult := by
  intro s
  refine ⟨fun imm => ⟨rfl, ?_, fun e => ?_⟩, fun imm => ⟨rfl, ?_, fun e => ?_⟩, fun imm => ⟨rfl, ?_, fun e => ?_⟩⟩
  · rw [← immediate_eq_ofNat]
    exact pushResult_of_exec (op := .pushU8) rfl
  · exact raisesError_of_push (op := .pushU8) rfl
  · rw [← immediate_eq_ofNat]
    exact pushResult_of_exec (op := .pushU16) rfl
  · exact raisesError_of_push (op := .pushU16) rfl
  · exact pushResult_of_exec (exec_pushU32 imm s)
  · exact raisesError_of_push (exec_pushU32 imm s)

/-- Settles O41: the read's error, else the push of the word read. -/
theorem pushMemResult : Obligations.PushMemResult := by
  intro addr s
  exact ⟨rfl, fun hexists => pushResult_of_exec (exec_pushMem_of_exists hexists), fun e => raisesError_of_load rfl,
    fun e hexists => raisesError_of_push (exec_pushMem_of_exists hexists)⟩

/-- Settles O42: the word at SP where it exists, else the error of the first check that fails. -/
theorem popRegResult : Obligations.PopRegResult := by
  intro dst s
  refine ⟨rfl, popReg_completes, fun e he => ?_, fun hexists hover => ?_⟩
  · refine raisesError_of_exec (exec_popReg dst s) ?_
    rw [pop, checkUp_of_accessError he, error_bind, error_bind]
  · refine raisesError_of_exec (exec_popReg dst s) ?_
    rw [pop, checkUp_of_le hexists.1 hexists.2, ok_bind, checkAddress_of_ge hover, error_bind, error_bind]

/-- Settles O22: the pop reads the four bytes the push has written. -/
theorem pushThenPopGivesBack : Obligations.PushThenPopGivesBack := by
  intro s t v dst hroom hadv hpush
  have hsp := (s.reg .sp).isLt
  obtain ⟨h4, hin⟩ := hroom
  obtain ⟨t', ht', hregs, ⟨_, _, _, _, hsize⟩, hstored⟩ :=
    pushResult_of_exec (exec_pushU32 v s) ⟨h4, hin⟩ (show (s.reg .ip).toNat + 5 < 2 ^ 32 by omega)
  obtain rfl : t' = t := by
    rw [ht'] at hpush
    exact Host.Outcome.next.inj hpush
  have htsp : t'.reg .sp = s.reg .sp - 4#32 := hregs .sp
  have htop : (t'.reg .sp).toNat = (s.reg .sp).toNat - 4 := by rw [htsp, toNat_sub_of_le h4]
  have htip : (t'.reg .ip).toNat = (s.reg .ip).toNat + 5 := by
    rw [show t'.reg .ip = s.reg .ip + 5#32 from hregs .ip, toNat_add_of_lt (by omega)]
  obtain ⟨u, hu, huregs, _, humem⟩ := popReg_completes (s := t') (dst := dst) ⟨by omega, by omega⟩ (by omega)
    (.inr (show (t'.reg .ip).toNat + 2 < 2 ^ 32 by omega))
  refine ⟨u, hu, ?_, fun hne => ?_, humem⟩
  · rw [huregs dst, if_pos rfl, htop, stackWordAt_of_storesStack hstored h4]
  · rw [huregs .sp, if_neg (Ne.symm hne), if_pos rfl, htsp, BitVec.sub_add_cancel]

/-- Settles O23: the two readings of four bytes are each other's reversal, for the bytes a push leaves and for those a
write leaves. -/
theorem stackWordsAreByteReversedData : Obligations.StackWordsAreByteReversedData := by
  refine ⟨stackWordAt_eq_byteReversed, fun s v hroom hadv => ?_, fun s w dst hexists hfits hadv => ?_⟩
  · have hsp := (s.reg .sp).isLt
    obtain ⟨h4, hin⟩ := hroom
    obtain ⟨t, ht, hregs, ⟨_, _, _, _, hsize⟩, hstored⟩ := pushResult_of_exec (exec_pushU32 v s) ⟨h4, hin⟩ hadv
    have htop : (t.reg .sp).toNat = (s.reg .sp).toNat - 4 := by
      rw [show t.reg .sp = s.reg .sp - 4#32 from hregs .sp, toNat_sub_of_le h4]
    have htexists : Exists t (t.reg .sp).toNat 4 := ⟨by omega, by omega⟩
    have hword : wordAt t.mem (t.reg .sp).toNat = byteReversed v := by
      rw [wordAt_eq_byteReversed, htop, stackWordAt_of_storesStack hstored h4]
    refine ⟨t, ht, ?_, fun dst addr hea hfits => ?_⟩
    · rw [memRead_of_exists htexists, hword]
    · rw [← hea] at htexists hword
      obtain ⟨u, hu, huregs, _⟩ :=
        registerResult_of_load (i := .movRegMem dst addr) (op := .movRegMem) rfl htexists hfits
      exact ⟨u, hu, (huregs dst).trans (by rw [if_pos rfl, hword])⟩
  · refine ⟨_, memWrite_of_exists w hexists, ?_⟩
    obtain ⟨u, hu, huregs, _, humem⟩ :=
      popReg_completes (s := { s with mem := s.mem.storeLE (s.reg .sp).toNat w 4 }) hexists hfits hadv
    refine ⟨u, hu, ?_, fun hne => ?_, humem⟩
    · rw [huregs dst, if_pos rfl, stackWordAt_eq_byteReversed]
      exact congrArg byteReversed (wordAt_storeLE s.mem _ w)
    · rw [huregs .sp, if_neg (Ne.symm hne), if_pos rfl, State.reg_with_mem]

end Sys2Proof.Machine
end

section
/-!
PROOFS. Call and Ret (spec/44_call_ret.md R190 to R194): the frame a Call leaves, the words a Ret takes from it, and the
errors of both in their order.
-/

namespace Sys2Proof.Machine

open Sys2Proof.Claims

/-! ## The frame (R190) -/

/-- The registers after a frame is pushed and IP is set. -/
theorem reg_pushFrame_setReg_ip (ret w : Word) (s : State) (r : Reg) :
    ((pushFrame ret s).setReg .ip w).reg r =
      if r = .sp ∨ r = .fp then s.reg .sp - 24#32 else if r = .ip then w else s.reg r := by
  rw [State.reg_setReg, pushFrame_reg]
  cases r <;> simp

/-- Word `j` of a frame from its lowest address: the words stand in the opposite order to the one they are pushed in. -/
theorem stackWordAt_of_storesFrame {s t : State} {m : Memory} {top : Nat} {ret : Word} (h : StoresFrame s t top ret)
    (h24 : 24 ≤ top) (hsame : ∀ a, top - 24 ≤ a → a < top → m.read a = t.mem.read a) {j : Nat} (hj : j < 6) :
    stackWordAt m (top - 24 + 4 * j) = frameWord s ret (5 - j) := by
  have hbyte {b k : Nat} (hb : b + k = top - 24 + 4 * j + 3) (hk : k < 4) :
      m.read b = byteOf 32 (frameWord s ret (5 - j)) k := by
    rw [hsame b (by omega) (by omega), h b, if_pos (by omega), show (top - 1 - b) / 4 = 5 - j by omega,
      show (top - 1 - b) % 4 = k by omega, byteOf]
  rw [← stackWord_eq_stackWordAt]
  exact Memory.stackWord_of_bytes (hbyte (by omega) (by omega)) (hbyte (by omega) (by omega))
    (hbyte (by omega) (by omega)) (hbyte (by omega) (by omega))

/-! ## Call (R191) -/

theorem exec_call (addr : Word) (s : State) : exec (.call addr) s = finish s (callTo addr s) := rfl

/-- What a Call that passes its checks leaves. -/
theorem call_completes {addr : Word} {s : State} (hroom : CanPush s 24) (hadv : CanAdvance s 5)
    (hfits : ea s addr < 2 ^ 32) :
    Completes (.call addr) s (fun t =>
      (∀ r, t.reg r =
        if r = .sp ∨ r = .fp then s.reg .sp - 24#32 else if r = .ip then s.inputs.programStart + addr else s.reg r) ∧
      SameControl s t ∧ StoresFrame s t (s.reg .sp).toNat (s.reg .ip + 5#32)) := by
  refine completes_of_exec (exec_call addr s) (callTo_eq_ok.2 ⟨hroom, hadv, hfits, rfl⟩)
    ⟨reg_pushFrame_setReg_ip _ _ s, ?_, fun b => ?_⟩
  · simp [SameControl]
  · rw [State.setReg_mem]
    exact storesFrame_pushFrame _ hroom.1 b

/-! ## Ret (R192) -/

theorem exec_ret (s : State) : exec .ret s = finish s (returnFromFrame s) := rfl

/-- What a Ret that passes its checks leaves. -/
theorem ret_completes {s : State} (hexists : Exists s (s.reg .fp).toNat 24) (hsp : (s.reg .fp).toNat + 24 < 2 ^ 32)
    (hfp : (s.reg .fp).toNat + (stackWordAt s.mem (s.reg .fp).toNat).toNat < 2 ^ 32) :
    Completes .ret s (fun t =>
      (t.reg .sp = s.reg .fp + 24#32 ∧ t.reg .fp = s.reg .fp + stackWordAt s.mem (s.reg .fp).toNat ∧
        t.reg .ip = stackWordAt s.mem ((s.reg .fp).toNat + 4) ∧
        t.reg .r4 = stackWordAt s.mem ((s.reg .fp).toNat + 8) ∧
        t.reg .r3 = stackWordAt s.mem ((s.reg .fp).toNat + 12) ∧
        t.reg .r2 = stackWordAt s.mem ((s.reg .fp).toNat + 16) ∧
        t.reg .r1 = stackWordAt s.mem ((s.reg .fp).toNat + 20) ∧
        ∀ r, r = .r5 ∨ r = .r6 ∨ r = .r7 ∨ r = .r8 → t.reg r = s.reg r) ∧
      SameControl s t ∧ SameMemory s t) := by
  have hok : returnFromFrame s = .ok (unwindFrame s) :=
    returnFromFrame_eq_ok.2 ⟨⟨hsp, hexists.2⟩, by rwa [stackWord_eq_stackWordAt], rfl⟩
  have hregs (r : Reg) := unwindFrame_reg s r hsp
  simp only [stackWord_eq_stackWordAt] at hregs
  refine completes_of_exec (exec_ret s) hok ⟨⟨hregs .sp, hregs .fp, hregs .ip, hregs .r4, hregs .r3, hregs .r2,
    hregs .r1, ?_⟩, ?_, fun b => ?_⟩
  · rintro r (rfl | rfl | rfl | rfl)
    · exact hregs .r5
    · exact hregs .r6
    · exact hregs .r7
    · exact hregs .r8
  · simp [SameControl]
  · rw [unwindFrame_mem]

/-! ## The obligations -/

/-- Settles O48: the frame and the transfer. -/
theorem callResult : Obligations.CallResult := fun _ _ => ⟨rfl, call_completes⟩

/-- Settles O49: the first of the three checks that fails. -/
theorem callErrorsInOrder : Obligations.CallErrorsInOrder := by
  intro addr s
  refine ⟨fun e he => ?_, fun hroom hadv => ?_, fun hroom hadv hover => ?_⟩ <;>
    refine raisesError_of_exec (exec_call addr s) ?_
  · rw [callTo, checkDown_of_pushError (n := frameBytes) (by decide) he, error_bind]
  · rw [callTo, checkDown_of_le (n := frameBytes) hroom.1 hroom.2, ok_bind,
      checkAddress_of_ge (n := _ + Opcode.call.length) (Nat.le_of_not_lt hadv), error_bind]
  · rw [callTo, checkDown_of_le (n := frameBytes) hroom.1 hroom.2, ok_bind,
      checkAddress_of_lt (n := _ + Opcode.call.length) hadv, ok_bind, effectiveAddress_overflow hover, error_bind]

/-- Settles O50: the six words at FP. -/
theorem retResult : Obligations.RetResult := fun _ => ⟨rfl, ret_completes⟩

/-- Settles O51: the first of the three checks that fails. -/
theorem retErrorsInOrder : Obligations.RetErrorsInOrder := by
  intro s
  refine ⟨fun e he => ?_, fun hexists hover => ?_, fun hexists hsp hover => ?_⟩ <;>
    refine raisesError_of_exec (exec_ret s) ?_
  · rw [returnFromFrame, checkUp_of_accessError (n := frameBytes) he, error_bind]
  · rw [returnFromFrame, checkUp_of_le (n := frameBytes) hexists.1 hexists.2, ok_bind,
      checkAddress_of_ge (n := _ + frameBytes) hover, error_bind]
  · rw [returnFromFrame, checkUp_of_le (n := frameBytes) hexists.1 hexists.2, ok_bind,
      checkAddress_of_lt (n := _ + frameBytes) hsp, ok_bind, stackWord_eq_stackWordAt, checkAddress_of_ge hover,
      error_bind]

/-- Settles O24: the six words the Call has stored are those the Ret takes, and the frame size 24 leads back to SP. -/
theorem callThenRetRestores : Obligations.CallThenRetRestores := by
  intro s t u addr hroom hadv hfits hcall hsize hfp hsame
  obtain ⟨h24, hin⟩ := hroom
  have hsp := (s.reg .sp).isLt
  obtain ⟨t', ht', _, _, hframe⟩ := call_completes ⟨h24, hin⟩ hadv hfits
  obtain rfl : t' = t := by
    rw [ht'] at hcall
    exact Host.Outcome.next.inj hcall
  have hbase : (u.reg .fp).toNat = (s.reg .sp).toNat - 24 := by rw [hfp, toNat_sub_of_le h24]
  have hword {j : Nat} (hj : j < 6) :
      stackWordAt u.mem ((u.reg .fp).toNat + 4 * j) = frameWord s (s.reg .ip + 5#32) (5 - j) := by
    rw [hbase]
    exact stackWordAt_of_storesFrame hframe h24 hsame hj
  have hlow : stackWordAt u.mem (u.reg .fp).toNat = 24#32 := hword (j := 0) (by decide)
  have htop : u.reg .fp + 24#32 = s.reg .sp := by rw [hfp, BitVec.sub_add_cancel]
  obtain ⟨w, hw, ⟨wsp, wfp, wip, w4, w3, w2, w1, wrest⟩, hcontrol, hmem⟩ :=
    ret_completes (s := u) ⟨by omega, by omega⟩ (by omega) (by rw [hlow]; show _ + 24 < _; omega)
  refine ⟨w, hw, w1.trans (hword (j := 5) (by decide)), w2.trans (hword (j := 4) (by decide)),
    w3.trans (hword (j := 3) (by decide)), w4.trans (hword (j := 2) (by decide)),
    wip.trans (hword (j := 1) (by decide)), wsp.trans htop, ?_, wrest, hcontrol, hmem⟩
  rw [wfp, hlow, htop]

end Sys2Proof.Machine
end

section
/-!
PROOFS. Interrupts and Halt (spec/46_interrupt_halt.md R210 to R213, spec/60_exceptions.md R231 to R233).
-/

namespace Sys2Proof.Machine

open Sys2Proof.Claims

/-! ## The entry (R210, R231) -/

theorem exec_interrupt (idx : BitVec 8) (s : State) : exec (.interrupt idx) s = finish s (dispatch idx.toNat 2 s) := rfl

theorem exec_interruptReg (reg : Reg) (s : State) :
    exec (.interruptReg reg) s = finish s (dispatch (s.reg reg).toNat 2 s) := rfl

/-- The first entry leaves the memory of the pushed frame. -/
theorem saveContext_mem_first {s : State} {len : Nat} (h : s.inInt = false) :
    (saveContext s len).mem = (pushFrame (s.reg .ip + BitVec.ofNat 32 len) s).mem := by
  rw [saveContext_first h]

/-- The first entry moves SP and FP below the frame. -/
theorem saveContext_reg_first {s : State} {len : Nat} (h : s.inInt = false) (r : Reg) :
    (saveContext s len).reg r = if r = .sp ∨ r = .fp then s.reg .sp - 24#32 else s.reg r := by
  rw [saveContext_first h, State.reg_with_inInt, pushFrame_reg]

/-- An entry that passes its checks goes to the table entry as it reads after the context is saved. -/
theorem dispatch_of_checks {idx : Nat} {s : State}
    (hsave : s.inInt = true ∨ CanPush s 24 ∧ CanAdvance s 2)
    (hentry : Exists s (s.inputs.interruptTable.toNat + 4 * idx) 4) :
    dispatch idx 2 s =
      .ok ((saveContext s 2).setReg .ip (wordAt (saveContext s 2).mem (s.inputs.interruptTable.toNat + 4 * idx))) := by
  rw [← ofNat_valueLE_four, Nat.mul_comm]
  rw [Nat.mul_comm] at hentry
  exact dispatch_eq_ok.2 ⟨hsave, hentry, rfl⟩

/-- An instruction that dispatches has the interrupt result: a saving entry, or a bare transfer, by in_int. -/
theorem interruptResult_of_exec {i : Instr} {s : State} {idx : Nat} (hexec : exec i s = finish s (dispatch idx 2 s)) :
    InterruptResult i s idx := by
  refine fun hentry => ⟨fun hfirst hroom hadv => ?_, fun hnested => ?_⟩
  · refine completes_of_exec hexec (dispatch_of_checks (.inr ⟨hroom, hadv⟩) hentry) ⟨fun r => ?_, fun b => ?_, by simp⟩
    · rw [State.reg_setReg, saveContext_reg_first hfirst, State.setReg_mem]
      cases r <;> simp
    · rw [State.setReg_mem, saveContext_mem_first hfirst]
      exact storesFrame_pushFrame _ hroom.1 b
  · have hok := dispatch_of_checks (.inl hnested) hentry
    rw [saveContext_nested hnested] at hok
    exact completes_of_exec hexec hok (onlyIp_setReg_ip s _)

/-! ## The errors of an entry in their order -/

/-- Without room for the frame a saving entry raises the push's error. -/
theorem checkFrameSave_of_pushError {s : State} {len : Nat} {e : CpuError} (hfirst : s.inInt = false)
    (h : PushError s 24 e) : checkFrameSave s len = .error e := by
  rw [checkFrameSave, if_neg (by simp [hfirst]), checkDown_of_pushError (n := frameBytes) (by decide) h, error_bind]

/-- With room, a saving entry checks the return address. -/
theorem checkFrameSave_overflow {s : State} {len : Nat} (hfirst : s.inInt = false) (hroom : CanPush s 24)
    (h : ¬ CanAdvance s len) : checkFrameSave s len = .error .stackOverflow := by
  rw [checkFrameSave, if_neg (by simp [hfirst]), checkDown_of_le (n := frameBytes) hroom.1 hroom.2, ok_bind,
    checkAddress_of_ge (Nat.le_of_not_lt h)]

/-- An instruction that dispatches raises the errors of the entry in their order. -/
theorem interruptErrors_of_exec {i : Instr} {s : State} {idx : Nat} (hexec : exec i s = finish s (dispatch idx 2 s)) :
    InterruptErrors i s idx := by
  refine ⟨fun hfirst e he => ?_, fun hfirst hroom hadv => ?_, fun hsave e he => ?_⟩ <;>
    refine raisesError_of_exec hexec ?_
  · rw [dispatch, checkFrameSave_of_pushError hfirst he, error_bind]
  · rw [dispatch, checkFrameSave_overflow hfirst hroom hadv, error_bind]
  · rw [Nat.mul_comm] at he
    rw [dispatch, (checkFrameSave_eq_ok (u := ())).2 hsave, ok_bind, ivtStride, checkUp_of_accessError he, error_bind]

/-! ## The obligations -/

/-- Settles O52: the entry whose index is the immediate. -/
theorem interruptResultBothEntries : Obligations.InterruptResultBothEntries :=
  fun idx s => ⟨rfl, interruptResult_of_exec (exec_interrupt idx s)⟩

/-- Settles O53: the entry whose index is the register as it is before the pushes. -/
theorem interruptRegResultBothEntries : Obligations.InterruptRegResultBothEntries :=
  fun reg s => ⟨rfl, interruptResult_of_exec (exec_interruptReg reg s)⟩

/-- Settles O54: the errors of the entry, for both instructions. -/
theorem interruptErrorsInOrder : Obligations.InterruptErrorsInOrder :=
  fun s => ⟨fun idx => interruptErrors_of_exec (exec_interrupt idx s),
    fun reg => interruptErrors_of_exec (exec_interruptReg reg s)⟩

/-- Settles O55: the meaning of Halt, and the step of a halted engine. -/
theorem haltResult : Obligations.HaltResult := by
  intro s
  exact ⟨rfl, { s with run := .halted }, rfl, rfl, State.reg_with_run s .halted, rfl, rfl, rfl, rfl, fun _ => rfl,
    stoppedEngineStays _ (by simp)⟩

/-- Settles O56: with in_int true the listed writes of both interrupts are none, and no effect clears in_int. -/
theorem laterInterruptsSaveNothing : Obligations.LaterInterruptsSaveNothing := by
  intro s t i hi hset hexec
  obtain heffect | ⟨e, _, rfl⟩ := exec_cases hexec
  · obtain ⟨hdst, himp, hbytes⟩ : destination i = none ∧ implicitWrites s i = [] ∧ (writtenBytes s i).2 = 0 := by
      obtain ⟨idx, rfl⟩ | ⟨r, rfl⟩ := hi <;> simp [destination, implicitWrites, writtenBytes, hset]
    refine ⟨fun r hip => heffect.reg_eq hip (by simp [hdst]) (by simp [himp]), fun b => heffect.read_eq (by omega), ?_⟩
    obtain hsame | ⟨hclear, _⟩ := heffect.inInt_eq
    · rw [hsame, hset]
    · rw [hset] at hclear
      cases hclear
  · exact ⟨fun r _ => State.raise_reg s e r, fun b => by rw [State.raise_mem], hset⟩

end Sys2Proof.Machine
end

section
/-!
PROOFS. The sequential advance (spec/30_encoding.md R96): the overflow of every form that ends in it, the conditional jumps
on the flags a compare can leave (spec/43_cmp_jump.md R181), and a store into the next instruction (spec/20_memory.md R70).
-/

namespace Sys2Proof.Machine

open Sys2Proof.Claims

/-! ## Overflow of the advance, one lemma per shared operation -/

section Overflow

variable {i : Instr} {s : State} {op : Opcode}

/-- A destination other than IP. -/
theorem raisesError_of_writeDestination_overflow {dst : Reg} {v : Word} {len : Nat}
    (hexec : exec i s = finish s (writeDestination op dst v s)) (hdst : dst ≠ .ip) (hlen : op.length = len)
    (h : ¬ CanAdvance s len) : RaisesError i s .stackOverflow := by
  refine raisesError_of_exec hexec ?_
  rw [writeDestination, if_neg hdst, advance_overflow]
  rw [State.reg_setReg_ne s v (Ne.symm hdst), hlen]
  exact Nat.le_of_not_lt h

/-- A load or a sum with a memory word, its read passed, into a destination other than IP. -/
theorem raisesError_of_load_overflow {dst : Reg} {addr : Word} {len : Nat} {g : Word → Word}
    (hexec : exec i s = finish s (loadOperand s addr >>= fun m => writeDestination op dst (g m) s)) (hdst : dst ≠ .ip)
    (hlen : op.length = len) (h : ¬ CanAdvance s len) (hexists : Exists s (ea s addr) 4) :
    RaisesError i s .stackOverflow := by
  rw [loadOperand_of_exists hexists, ok_bind] at hexec
  exact raisesError_of_writeDestination_overflow hexec hdst hlen h

/-- A store whose bytes exist. -/
theorem raisesError_of_store_overflow {addr v : Word} {n len : Nat}
    (hexec : exec i s = finish s (storeAndAdvance op addr n v s)) (hlen : op.length = len) (h : ¬ CanAdvance s len)
    (hn : n ≠ 0) (hexists : Exists s (ea s addr) n) : RaisesError i s .stackOverflow := by
  refine raisesError_of_exec hexec ?_
  have hstore := (storeOperand_eq_ok (v := v) hn).2 ⟨hexists.1, hexists.2, rfl⟩
  rw [storeAndAdvance, hstore, ok_bind, advance_overflow]
  rw [State.reg_with_mem, hlen]
  exact Nat.le_of_not_lt h

/-- A sum in memory whose bytes exist. -/
theorem raisesError_of_addToMemory_overflow {addr v : Word} {len : Nat}
    (hexec : exec i s = finish s (addToMemory op addr v s)) (hlen : op.length = len) (h : ¬ CanAdvance s len)
    (hexists : Exists s (ea s addr) 4) : RaisesError i s .stackOverflow := by
  rw [addToMemory_eq_load_store, loadOperand_of_exists hexists, ok_bind] at hexec
  exact raisesError_of_store_overflow hexec hlen h four_ne_zero hexists

/-- A push with room. -/
theorem raisesError_of_push_overflow {v : Word} {len : Nat} (hexec : exec i s = finish s (pushAndAdvance op v s))
    (hlen : op.length = len) (h : ¬ CanAdvance s len) (hroom : CanPush s 4) : RaisesError i s .stackOverflow := by
  refine raisesError_of_exec hexec ?_
  rw [pushAndAdvance, push_eq_ok.2 ⟨hroom.1, hroom.2, rfl⟩, ok_bind, advance_overflow]
  rw [pushWord_reg_ne v s (by decide), hlen]
  exact Nat.le_of_not_lt h

/-- A compare. -/
theorem raisesError_of_compare_overflow {a b len : Nat} (hexec : exec i s = finish s (compareAndAdvance op a b s))
    (hlen : op.length = len) (h : ¬ CanAdvance s len) : RaisesError i s .stackOverflow := by
  refine raisesError_of_exec hexec ?_
  rw [compareAndAdvance, advance_overflow]
  rw [State.reg_with_flags, hlen]
  exact Nat.le_of_not_lt h

/-- A conditional jump that is not taken. -/
theorem raisesError_of_jump_overflow {taken : Bool} {cond : Prop} {addr : Word} {len : Nat}
    (hexec : exec i s = finish s (jumpIf op taken addr s)) (hcond : taken = true ↔ cond) (hnot : ¬ cond)
    (hlen : op.length = len) (h : ¬ CanAdvance s len) : RaisesError i s .stackOverflow := by
  refine raisesError_of_exec hexec ?_
  rw [jumpIf, if_neg (mt hcond.1 hnot), hlen, advance_overflow (Nat.le_of_not_lt h)]

end Overflow

/-- A pop whose bytes exist, into a destination other than IP. -/
theorem popReg_overflow {s : State} {dst : Reg} (hdst : dst ≠ .ip) (h : ¬ CanAdvance s 2)
    (hexists : Exists s (s.reg .sp).toNat 4) (hfits : (s.reg .sp).toNat + 4 < 2 ^ 32) :
    RaisesError (.popReg dst) s .stackOverflow := by
  refine raisesError_of_exec (exec_popReg_of_exists dst hexists hfits) ?_
  rw [writeDestination, if_neg hdst, advance_overflow]
  rw [State.reg_setReg_ne _ _ (Ne.symm hdst), popWord_reg_ne s (by decide)]
  exact Nat.le_of_not_lt h

/-! ## A byte stored at the next instruction (R70) -/

/-- The low byte of a widened byte is the byte. -/
theorem byteOf_immediate (b : Byte) : byteOf 32 (immediate 8 b) 0 = b := by
  apply byteOf_eq
  have hlt := b.isLt
  rw [toNat_immediate (by decide)]
  omega

/-- The byte at IP and those after it are an instruction's. -/
theorem standsAtIp_of_cons {s : State} {i : Instr} {b : Byte} {rest : List Byte} (henc : encode i = b :: rest)
    (hexists : Exists s (s.reg .ip).toNat (rest.length + 1)) (hfirst : s.mem.read (s.reg .ip).toNat = b)
    (hrest : ∀ k (h : k < rest.length), s.mem.read ((s.reg .ip).toNat + 1 + k) = rest[k]) : StandsAtIp s i := by
  unfold StandsAtIp
  rw [henc]
  refine ⟨hexists, fun k hk => ?_⟩
  cases k with
  | zero => exact hfirst
  | succ k =>
    rw [show (s.reg .ip).toNat + (k + 1) = (s.reg .ip).toNat + 1 + k by omega]
    exact hrest k (Nat.lt_of_succ_lt_succ hk)

/-- What StoreU8 to the byte right after itself leaves: a running engine with that byte at IP and memory elsewhere as
before. -/
theorem storeU8_next_completes {s : State} {addr : Word} {b : Byte} (hexists : Exists s (ea s addr) 1)
    (hadv : CanAdvance s 6) (hnext : (s.reg .ip).toNat + 6 = ea s addr) :
    Completes (.storeU8 addr b) s (fun t =>
      t.run = s.run ∧ t.memSize = s.memSize ∧ (t.reg .ip).toNat = ea s addr ∧ t.mem.read (ea s addr) = b ∧
        ∀ a, a ≠ ea s addr → t.mem.read a = s.mem.read a) := by
  obtain ⟨t, ht, hip, ⟨_, _, hrun, _, hsize⟩, hstored⟩ :=
    storeResult_of_exec (i := .storeU8 addr b) (op := .storeU8) one_ne_zero rfl hexists hadv
  refine ⟨t, ht, hrun, hsize, ?_, ?_, fun a ha => ?_⟩
  · rw [show t.reg .ip = s.reg .ip + 6#32 from hip .ip, toNat_add_of_lt (by rw [hnext]; exact hnext ▸ hadv), hnext]
  · rw [hstored, if_pos (by omega), Nat.sub_self]
    exact byteOf_immediate b
  · rw [hstored, if_neg (by omega)]

/-! ## The obligations -/

/-- Settles O10: by the shared operation each form ends in. -/
theorem advanceOverflowRaises : Obligations.AdvanceOverflowRaises := by
  intro s
  refine ⟨fun dst hdst => ⟨fun h => ⟨?_, popReg_overflow hdst h⟩, fun h src imm => ⟨?_, ?_, ?_, ?_⟩,
      fun h imm => ⟨?_, ?_⟩, fun h imm addr => ⟨?_, ?_, fun hexists => ⟨?_, ?_, ?_⟩⟩⟩,
    fun addr => ⟨fun h hexists => ⟨?_, fun hroom => ?_⟩, fun h hexists src => ⟨?_, ?_, ?_⟩,
      fun h hexists imm => ⟨?_, ?_⟩, fun h hexists imm => ⟨?_, ?_⟩, fun h hexists imm => ⟨?_, ?_⟩⟩,
    fun hroom => ⟨fun h src imm => ⟨?_, ?_⟩, fun h imm => ?_, fun h imm => ?_⟩,
    fun h => ⟨fun a b => ?_, fun a b => ?_⟩, fun h a b => ?_, fun h a b => ?_,
    fun h addr => ⟨fun hgt => ?_, fun hgt hgte => ?_, fun hlt => ?_, fun hlt hlte => ?_⟩⟩
  · exact raisesError_of_writeDestination_overflow (op := .incReg) rfl hdst rfl h
  · exact raisesError_of_writeDestination_overflow (op := .movRegReg) rfl hdst rfl h
  · exact raisesError_of_writeDestination_overflow (op := .addRegReg) rfl hdst rfl h
  · exact raisesError_of_writeDestination_overflow (op := .movRegU8) rfl hdst rfl h
  · exact raisesError_of_writeDestination_overflow (op := .addRegU8) rfl hdst rfl h
  · exact raisesError_of_writeDestination_overflow (op := .movRegU16) rfl hdst rfl h
  · exact raisesError_of_writeDestination_overflow (op := .addRegU16) rfl hdst rfl h
  · exact raisesError_of_writeDestination_overflow (op := .movRegU32) rfl hdst rfl h
  · exact raisesError_of_writeDestination_overflow (op := .addRegU32) rfl hdst rfl h
  · exact raisesError_of_load_overflow (op := .movRegMem) (g := id) rfl hdst rfl h hexists
  · exact raisesError_of_load_overflow (op := .load) (g := id) rfl hdst rfl h hexists
  · exact raisesError_of_load_overflow (op := .addRegMem) (g := (s.reg dst + ·)) rfl hdst rfl h hexists
  · exact raisesError_of_addToMemory_overflow (op := .incMem) rfl rfl h hexists
  · exact raisesError_of_push_overflow (exec_pushMem_of_exists hexists) rfl h hroom
  · exact raisesError_of_store_overflow (op := .movMemReg) rfl rfl h four_ne_zero hexists
  · exact raisesError_of_store_overflow (op := .storeReg) rfl rfl h four_ne_zero hexists
  · exact raisesError_of_addToMemory_overflow (op := .addMemReg) rfl rfl h hexists
  · exact raisesError_of_store_overflow (op := .movMemU8) rfl rfl h one_ne_zero hexists
  · exact raisesError_of_store_overflow (op := .storeU8) rfl rfl h one_ne_zero hexists
  · exact raisesError_of_store_overflow (exec_movMemU16 addr imm s) rfl h two_ne_zero hexists
  · exact raisesError_of_store_overflow (exec_storeU16 addr imm s) rfl h two_ne_zero hexists
  · exact raisesError_of_store_overflow (exec_movMemU32 addr imm s) rfl h four_ne_zero hexists
  · exact raisesError_of_store_overflow (exec_storeU32 addr imm s) rfl h four_ne_zero hexists
  · exact raisesError_of_push_overflow (op := .pushReg) rfl rfl h hroom
  · exact raisesError_of_push_overflow (op := .pushU8) rfl rfl h hroom
  · exact raisesError_of_push_overflow (op := .pushU16) rfl rfl h hroom
  · exact raisesError_of_push_overflow (exec_pushU32 imm s) rfl h hroom
  · exact raisesError_of_compare_overflow (op := .cmpReg) rfl rfl h
  · exact raisesError_of_compare_overflow (op := .cmpU8) rfl rfl h
  · exact raisesError_of_compare_overflow (op := .cmpU16) rfl rfl h
  · exact raisesError_of_compare_overflow (op := .cmpU32) rfl rfl h
  · exact raisesError_of_jump_overflow (op := .jumpGe) rfl (takenGe_iff s.flags) hgt rfl h
  · exact raisesError_of_jump_overflow (op := .jumpGte) rfl (takenGte_iff s.flags) (not_or.2 ⟨hgt, hgte⟩) rfl h
  · exact raisesError_of_jump_overflow (op := .jumpLt) rfl (takenLt_iff s.flags) hlt rfl h
  · exact raisesError_of_jump_overflow (op := .jumpLte) rfl (takenLte_iff s.flags) (not_or.2 ⟨hlt, hlte⟩) rfl h

/-- Settles O47: the conditions of each pair differ at Gte and at Lte only, which no compare leaves; at Eq all fail. -/
theorem jumpPairsAgreeOnReachableFlags : Obligations.JumpPairsAgreeOnReachableFlags := by
  intro addr s hflags
  have hgte : takenGte s.flags = takenGe s.flags := by
    obtain h | h | h := hflags <;> rw [h] <;> rfl
  have hlte : takenLte s.flags = takenLt s.flags := by
    obtain h | h | h := hflags <;> rw [h] <;> rfl
  refine ⟨?_, ?_, fun heq => ?_⟩
  · exact congrArg (fun taken => finish s (jumpIf .jumpGe taken addr s)) hgte
  · exact congrArg (fun taken => finish s (jumpIf .jumpLt taken addr s)) hlte
  · obtain ⟨_, _, _, _, hge, hgte, hlt, hlte⟩ := conditionalJumpResults addr s
    exact ⟨hge.2 (by simp [heq]), hgte.2 (by simp [heq]), hlt.2 (by simp [heq]), hlte.2 (by simp [heq])⟩

/-- Settles O57: the stored byte stands at IP of the next state, so the fetch there sees it; 0x28 and 0x29 are whole
instructions and the bytes from 0x2A on name no opcode. -/
theorem fetchSeesStores : Obligations.FetchSeesStores := by
  intro s addr b hrun hexists hadv hnext
  obtain ⟨t, ht, htrun, hsize, hip, hbyte, hframe⟩ := storeU8_next_completes (b := b) hexists hadv hnext
  rw [hrun] at htrun
  obtain ⟨htop, hin⟩ := hexists
  have hruns : ∀ (i : Instr) (rest : List Byte), encode i = b :: rest → Exists s (ea s addr + 1) rest.length →
      (∀ k (h : k < rest.length), s.mem.read (ea s addr + 1 + k) = rest[k]) → step t = exec i t := by
    intro i rest henc ⟨hresttop, hrestin⟩ hrest
    refine step_of_standsAtIp htrun (standsAtIp_of_cons henc ⟨by omega, by omega⟩ ?_ fun k hk => ?_)
    · rw [hip, hbyte]
    · rw [hip, hframe _ (by omega), hrest k hk]
  refine ⟨t, ht, hruns, fun hb => ?_, fun hb => ?_, fun hb => ?_⟩
  · exact hruns .halt [] (by rw [hb]; rfl) ⟨htop, hin⟩ (fun k hk => absurd hk (Nat.not_lt_zero k))
  · exact hruns .ret [] (by rw [hb]; rfl) ⟨htop, hin⟩ (fun k hk => absurd hk (Nat.not_lt_zero k))
  · have hfetch := fetch_unknown_opcode (s := t) (by omega) (by rwa [hip, hbyte])
    rw [hip, hbyte] at hfetch
    exact step_of_fetch_error htrun hfetch

end Sys2Proof.Machine
end
